-- ==== Sys2Proof/Word.lean ====
section
/-! DEFINITION. The word types of the chimp8 core (spec 00_scope.md R7, R9, R10; 10_state.md R30, R33, R35, R48).

All values are unsigned (R10). Bit 0 of a word is its least significant bit (R9), which is how `BitVec` numbers its bits. -/

namespace Sys2Proof

/-- An 8-bit value: a general register, a timer, a memory byte (R30, R38, R39). -/
abbrev Byte := BitVec 8

/-- A 16-bit value: an instruction word, pc, I, a stack entry (R9, R33, R35, R36). -/
abbrev Word := BitVec 16

/-- The 4-bit immediate N (R102). -/
abbrev Nibble := BitVec 4

/-- The 12-bit address immediate NNN (R102). -/
abbrev Imm12 := BitVec 12

/-- The index of a general register, 0x0 to 0xF (R30). -/
abbrev RegIx := Fin 16

/-- Register VF, the flag register (R31). -/
abbrev vF : RegIx := 15

/-- An elapsed time in seconds, a non-negative rational (R310, R341: "rational seconds ≥ 0"). A negative time is a
host-duty violation that the model gives no move (R347), so the type has none. -/
abbrev Elapsed := { q : Rat // 0 ≤ q }

end Sys2Proof
end

