-- ==== Sys2Proof/Config.lean ====
section
/-! DEFINITION. What an implementation of the core fixes (spec 00_scope.md R8, R325; 92_eei_decisions.md) and the two
free values (RAND and COST). The kinds of the parameters stand here; their default values, which a repair may mend, stand
in Machine/Parameters.lean. The parameters of one machine are the field `params` of State, which no step changes, so that
a statement about every state holds for every choice of them (log entry 1). -/

namespace Sys2Proof.Config

/-- OOB_POLICY (R8, R72, D11): what a memory address of 4096 or more does. -/
inductive OobPolicy where
  | wrap
  | refuse
  deriving DecidableEq, Repr

/-- KEY_INDEX_POLICY (R8, R270, D14): what EX9E and EXA1 do with VX > 0xF. -/
inductive KeyIndexPolicy where
  | lowNibble
  | refuse
  deriving DecidableEq, Repr

/-- FONT_INDEX_POLICY (R8, R242, D15): what FX29 does with VX > 0xF. -/
inductive FontIndexPolicy where
  | full
  | lowNibble
  | refuse
  deriving DecidableEq, Repr

/-- FAMILY0_MATCH (R8, R106, D5): whether family 0 is selected by w[11:0] or by w[7:0] alone. -/
inductive Family0Match where
  | full12
  | lowByte
  deriving DecidableEq, Repr

/-- LEGACY_MEMOP_INCREMENT (R8, R244, D10): what the legacy FX55 and FX65 add to I. -/
inductive MemopIncrement where
  | xPlusOne
  | x
  deriving DecidableEq, Repr

/-- The parameters of R8 that are plain values. COST is `Config.costOffset`, RAND is `Config.randByte`, FONT_BYTES is an
argument of construction (Machine/Reset.lean), and the four host-set inputs are fields of State (R50). -/
structure Params where
  oobPolicy              : OobPolicy
  keyIndexPolicy         : KeyIndexPolicy
  fontIndexPolicy        : FontIndexPolicy
  family0Match           : Family0Match
  legacyShiftWritesVy    : Bool
  legacyMemopIncrement   : MemopIncrement
  /-- MAX_CYCLE_RATE, cycles per second (R322). -/
  maxCycleRate           : Rat
  /-- MAX_CATCHUP_CYCLES (R320). -/
  maxCatchupCycles       : Nat
  /-- ACCURATE_BASE_RATE, cycles per second (R320). -/
  accurateBaseRate       : Rat
  deriving DecidableEq, Repr

/-- What the ACCURATE-mode cost of an instruction may depend on (R113, R374): the word; pc before and after (a taken skip,
the target of BNNN); I before and after (a page crossing of FX1E, under any meaning of "page", D41); VF after (the
collision result of DXYN, whose height is in the word). -/
structure CostInputs where
  word     : Word
  pcBefore : Word
  pcAfter  : Word
  iBefore  : Word
  iAfter   : Word
  vfAfter  : Byte
  deriving DecidableEq, Repr

/-- RAND() (R11, R181, D31): the n-th random byte the environment draws. A free value: it has no body, so a claim about a
draw holds whatever byte it is (log entry 2). -/
opaque randByte : Nat → Byte

/-- COST (R8, R113, D25): a number that fixes the ACCURATE-mode cost of an instruction; `instructionCost` of
Machine/Ops.lean brings it into the range 1 to MAX_CATCHUP_CYCLES that R325 sets. A free value: it has no body (log
entry 3). -/
opaque costOffset : CostInputs → Nat

end Sys2Proof.Config
end

