-- ==== Sys2Proof/Machine/Parameters.lean ====
section
/-! DEFINITION. The values of the parameters at `State.reset` (spec 00_scope.md R8; 93_implementation_defined.md Part 3).
They stand here, beside the machine, so that a later repair may mend them. -/

namespace Sys2Proof.Machine

open Sys2Proof.Config

/-- The default FONT_BYTES (R8, D36; 93_implementation_defined.md Part 3): sixteen glyphs of five bytes, glyph d first
byte at index 5·d. PRESUMED by the spec from general knowledge (log entry 4); no statement rests on a byte of it. -/
def defaultFont : List Byte :=
  [0xF0, 0x90, 0x90, 0x90, 0xF0, 0x20, 0x60, 0x20, 0x20, 0x70] ++
  [0xF0, 0x10, 0xF0, 0x80, 0xF0, 0xF0, 0x10, 0xF0, 0x10, 0xF0] ++
  [0x90, 0x90, 0xF0, 0x10, 0x10, 0xF0, 0x80, 0xF0, 0x10, 0xF0] ++
  [0xF0, 0x80, 0xF0, 0x90, 0xF0, 0xF0, 0x10, 0x20, 0x40, 0x40] ++
  [0xF0, 0x90, 0xF0, 0x90, 0xF0, 0xF0, 0x90, 0xF0, 0x10, 0xF0] ++
  [0xF0, 0x90, 0xF0, 0x90, 0x90, 0xE0, 0x90, 0xE0, 0x90, 0xE0] ++
  [0xF0, 0x80, 0x80, 0x80, 0xF0, 0xE0, 0x90, 0x90, 0x90, 0xE0] ++
  [0xF0, 0x80, 0xF0, 0x80, 0xF0, 0xF0, 0x80, 0xF0, 0x80, 0x80]

/-- The parameters at `State.reset`: the defaults of R8 where R8 gives one (D5, D9, D10, D11, D14, D15). The last three
are OPEN in R8. The values here are only placeholders of the model, DESIGN CHOICE (log entry 5): the cap 100 and the
base rate 1000 are those of the clock vectors of 95_test_vectors.md §2.7, the maximum rate is the model's own; no
statement rests on them. -/
def defaultParams : Params where
  oobPolicy            := .wrap
  keyIndexPolicy       := .lowNibble
  fontIndexPolicy      := .full
  family0Match         := .full12
  legacyShiftWritesVy  := false
  legacyMemopIncrement := .xPlusOne
  maxCycleRate         := 1000000
  maxCatchupCycles     := 100
  accurateBaseRate     := 1000

end Sys2Proof.Machine
end

