-- ==== Sys2Proof/Syntax.lean ====
section
/-! DEFINITION. The instructions of the chimp8 core, one constructor per row of spec/opcode_table.json (spec
30_encoding.md R114; 00_scope.md R12 for the field names X, Y, N, NN, NNN). -/

namespace Sys2Proof

/-- One instruction. `x` and `y` are the register fields w[11:8] and w[7:4], `n` is w[3:0], `nn` is w[7:0] and `nnn` is
w[11:0] (R102). `seVxVy` and `sneVxVy` carry the nibble N that R145 and R146 ignore, so that no bit of a word is lost.
`unlisted` carries the whole word (R291). -/
inductive Instr where
  | cls
  | ret
  | scd (n : Nibble)
  | scr
  | scl
  | exit
  | low
  | high
  | jp (nnn : Imm12)
  | call (nnn : Imm12)
  | seVxNn (x : RegIx) (nn : Byte)
  | sneVxNn (x : RegIx) (nn : Byte)
  | seVxVy (x y : RegIx) (n : Nibble)
  | ldVxNn (x : RegIx) (nn : Byte)
  | addVxNn (x : RegIx) (nn : Byte)
  | ldVxVy (x y : RegIx)
  | or (x y : RegIx)
  | and (x y : RegIx)
  | xor (x y : RegIx)
  | addVxVy (x y : RegIx)
  | sub (x y : RegIx)
  | shr (x y : RegIx)
  | subn (x y : RegIx)
  | shl (x y : RegIx)
  | sneVxVy (x y : RegIx) (n : Nibble)
  | ldI (nnn : Imm12)
  | jpV0 (nnn : Imm12)
  | rnd (x : RegIx) (nn : Byte)
  | drw (x y : RegIx) (n : Nibble)
  | skp (x : RegIx)
  | sknp (x : RegIx)
  | ldVxDt (x : RegIx)
  | ldVxK (x : RegIx)
  | ldDtVx (x : RegIx)
  | ldStVx (x : RegIx)
  | addIVx (x : RegIx)
  | ldF (x : RegIx)
  | ldB (x : RegIx)
  | ldMemVx (x : RegIx)
  | ldVxMem (x : RegIx)
  | unlisted (w : Word)
  deriving DecidableEq, Repr

end Sys2Proof
end

