-- ==== Sys2Proof/Machine/State.lean ====
section
/-! DEFINITION. The state of the core as plain data, why a step can stop, and the state after construction (spec
10_state.md R30 to R52; 60_exceptions.md R300 to R307; 70_reset_and_hazards.md R360). -/

namespace Sys2Proof.Machine

open Sys2Proof.Config

/-- Memory (R39, R70): the listed cells, addresses strictly rising and below 4096, none equal to what an unlisted address
reads as (`Memory.background`, the contents after construction). The form is `Memory.wf`. -/
abbrev Memory := List Host.Cell

/-- The framebuffer (R40): 64 rows of 128 bits. Column c of a row is its c-th bit FROM THE LEFT (`BitVec.getMsbD`), so
column 0 is the most significant bit and a row reads as it is seen. All access goes through Machine/Framebuffer.lean. -/
abbrev Framebuffer := Vector (BitVec 128) 64

/-- TIMING_MODE (R50). -/
inductive TimingMode where
  | fixed
  | accurate
  deriving DecidableEq, Repr

/-- The values of the state item FAULT (R46, R303). -/
inductive FaultCode where
  | none
  | stackUnderflow
  | stackOverflow
  deriving DecidableEq, Repr

/-- The state of the core. One field per state item of 10_state.md, then the configuration (R50), the parameters (R8) and
the one field that is the model's own, `randDraws`. -/
structure State where
  /-- V0 to VF (R30). -/
  v           : Vector Byte 16
  /-- The address register I (R35). -/
  i           : Word
  /-- The program counter (R33). -/
  pc          : Word
  /-- SP, the number of stack entries in use, 0 to 16 (R36). -/
  sp          : Fin 17
  /-- STACK[0..15] (R36). -/
  stack       : Vector Word 16
  /-- The delay timer DT (R38). -/
  dt          : Byte
  /-- The sound timer ST (R38). -/
  st          : Byte
  /-- MEM (R39). -/
  mem         : Memory
  /-- FB (R40). -/
  fb          : Framebuffer
  /-- HIRES (R41). -/
  hires       : Bool
  /-- KEY[0..15] (R42). -/
  key         : Vector Bool 16
  /-- AWAIT: `true` is AWAITING_KEY (R43). -/
  awaiting    : Bool
  /-- AWAIT_REG (R44). -/
  awaitReg    : RegIx
  /-- EXIT (R45). -/
  exit        : Bool
  /-- FAULT (R46). -/
  fault       : FaultCode
  /-- CYCLE_COST, a positive integer (R47). -/
  cycleCost   : Nat
  /-- CLK_ACC, seconds (R48). -/
  clkAcc      : Rat
  /-- TMR_ACC, seconds (R48). -/
  tmrAcc      : Rat
  /-- LEGACY_SHIFT (R50). -/
  legacyShift : Bool
  /-- LEGACY_MEMOP (R50). -/
  legacyMemop : Bool
  /-- TIMING_MODE (R50). -/
  timingMode  : TimingMode
  /-- CYCLE_RATE, cycles per second (R50). -/
  cycleRate   : Rat
  /-- The parameters of R8, fixed for one machine (log entry 1). -/
  params      : Params
  /-- The model's own field: how many random bytes CXNN has drawn (log entry 2). -/
  randDraws   : Nat
  deriving DecidableEq, Repr

/-- Why the machine stops with a fault. The fault leaves the state as it was but for FAULT (R302); `State.recordFault` of
Machine/Ops.lean writes FAULT. -/
inductive Fault where
  /-- 00EE with SP = 0 at address `pc` (R300). Raised by `execRet`. The spec's own fault, so neither safe nor unsafe. -/
  | stackUnderflow (pc : Word)
  /-- 2NNN with SP = 16 at address `pc` (R301). Raised by `execCall`. The spec's own fault, so neither safe nor unsafe. -/
  | stackOverflow (pc : Word)
  /-- A step asked of a core whose FAULT is `c`: no step exists (R302, R307), the stuck state of
  93_implementation_defined.md #4. Raised by `step`. Safe: the machine does not go on, as the spec says. -/
  | noStepAfterFault (c : FaultCode)
  deriving DecidableEq, Repr

/-- Why the model gives a step, or a host action, no meaning. Each but `notModelled` is one of the spec's own `refuse`
cases, and none of them arises under the default parameters. All are safe: the model stops. -/
inductive Refusal where
  /-- The instruction has no meaning in the model yet. Raised by a refused arm of `exec`; there is none. Safe. -/
  | notModelled (mnemonic : String)
  /-- A memory address of 4096 or more under OOB_POLICY = REFUSE (R72). Raised by `memIndex`. Safe. -/
  | addressOutOfRange (a : Nat)
  /-- VX > 0xF in EX9E or EXA1 under KEY_INDEX_POLICY = REFUSE (R270, R271). Raised by `keyIndex`. Safe. -/
  | keyIndexRange (v : Byte)
  /-- VX > 0xF in FX29 under FONT_INDEX_POLICY = REFUSE (R242). Raised by `fontGlyphAddress`. Safe. -/
  | fontDigitRange (d : Byte)
  /-- The clock parameters violate R325. Raised by `clockUpdate` only, never by a step. Safe. -/
  | clockParameters
  deriving DecidableEq, Repr

/-- What a step or a meaning answers (R111): a next state, a fault or a refusal. -/
abbrev Result := Host.Outcome State Fault Refusal

/-- The numeric cause code of FAULT (R303, D21). -/
def FaultCode.number : FaultCode → Nat
  | .none           => 0
  | .stackUnderflow => 1
  | .stackOverflow  => 2

/-- The core right after construction (R52, R360), under the default parameters: pc = 0x200, memory zero but for the font
(nothing listed), everything else zero, CYCLE_COST = 1 (D23). The run-state items follow D32. The four configuration
inputs and the OPEN parameters are supplied by the host (R50, R8); the values here are the model's (log entries 5, 6). -/
def State.reset : State where
  v           := Vector.replicate 16 0
  i           := 0
  pc          := 0x200
  sp          := 0
  stack       := Vector.replicate 16 0
  dt          := 0
  st          := 0
  mem         := []
  fb          := Vector.replicate 64 0
  hires       := false
  key         := Vector.replicate 16 false
  awaiting    := false
  awaitReg    := 0
  exit        := false
  fault       := .none
  cycleCost   := 1
  clkAcc      := 0
  tmrAcc      := 0
  legacyShift := false
  legacyMemop := false
  timingMode  := .fixed
  cycleRate   := 600
  params      := defaultParams
  randDraws   := 0

end Sys2Proof.Machine
end

