-- ==== Sys2Proof/Machine/Flags.lean ====
section
/-! DEFINITION. Every flag computation of the core (spec 10_state.md R31, R34; 41_alu.md R176 to R182; 42_display.md R202
to R205). VF is the only flag register; a flag is the byte 0 or 1, or a row count in a high-resolution draw. -/

namespace Sys2Proof.Machine

/-- A flag as the byte VF receives: 1 or 0. -/
def flagByte (b : Bool) : Byte := if b then 1 else 0

/-- The carry of 8XY4: the unsigned sum exceeds 255 (R176). -/
def carryFlag (a b : Byte) : Bool := decide (255 < a.toNat + b.toNat)

/-- The not-borrow of a − b: a ≥ b, unsigned (R177, R179). -/
def notBorrowFlag (a b : Byte) : Bool := decide (b.toNat ≤ a.toNat)

/-- The bit a right shift by one shifts out: bit 0 (R178). -/
def shiftedOutRight (src : Byte) : Bool := src.getLsbD 0

/-- The bit a left shift by one shifts out: bit 7 (R180). -/
def shiftedOutLeft (src : Byte) : Bool := src.getLsbD 7

/-- The high-resolution draw's VF: rows that collided plus rows clipped, 0 to 16 (R204). -/
def rowCountFlag (collided clipped : Nat) : Byte := BitVec.ofNat 8 (collided + clipped)

end Sys2Proof.Machine
end

