-- ==== Sys2Proof/WellFormed.lean ====
section
/-! DEFINITION. Well-formed instructions (spec 45_system.md R292; 30_encoding.md R106 to R109).

Every field of every listed instruction is bounded by its type, so the one check left is that `unlisted` carries a word
that no row of the opcode table takes. -/

namespace Sys2Proof

open Sys2Proof.Config

/-- Whether the low byte of a family-0 word is one of the family's opcodes (R106). -/
def family0Listed (b : Byte) : Bool :=
  b == 0xE0 || b == 0xEE || (0xC0 ≤ b && b ≤ 0xCF) || (0xFB ≤ b && b ≤ 0xFF)

/-- The unlisted words, as R292 lists them family by family; family 0 is read under FAMILY0_MATCH (R106). -/
def isUnlisted (m : Family0Match) (w : Word) : Bool :=
  match (w.extractLsb 15 12).toNat with
  | 0x0 =>
    match m with
    | .full12  => !((w.extractLsb 11 8 == (0 : Nibble)) && family0Listed (w.extractLsb 7 0))
    | .lowByte => !(family0Listed (w.extractLsb 7 0))
  | 0x8 => [0x8, 0x9, 0xA, 0xB, 0xC, 0xD, 0xF].contains (w.extractLsb 3 0).toNat
  | 0xE => !([0x9E, 0xA1].contains (w.extractLsb 7 0).toNat)
  | 0xF => !([0x07, 0x0A, 0x15, 0x18, 0x1E, 0x29, 0x33, 0x55, 0x65].contains (w.extractLsb 7 0).toNat)
  | _   => false

/-- An instruction is well formed when its word is one that decodes to it: an `unlisted` word is on the list of R292. -/
def Instr.wf (m : Family0Match) : Instr → Bool
  | .unlisted w => isUnlisted m w
  | _           => true

end Sys2Proof
end

