-- ==== Sys2Proof/Decode.lean ====
section
/-! DEFINITION. Decoding and encoding (spec 30_encoding.md R100 to R116; 45_system.md R291, R292).

Every 16-bit word decodes: a word that no row selects is `unlisted` (R115). What is rejected, by name, is a byte string
too short to hold a word. -/

namespace Sys2Proof

open Sys2Proof.Config

/-- Field F, w[15:12] (R102). -/
def fieldF (w : Word) : Nibble := w.extractLsb 15 12
/-- Field X, w[11:8], as a register index (R102). -/
def fieldX (w : Word) : RegIx := (w.extractLsb 11 8).toFin
/-- Field Y, w[7:4], as a register index (R102). -/
def fieldY (w : Word) : RegIx := (w.extractLsb 7 4).toFin
/-- Field N, w[3:0] (R102). -/
def fieldN (w : Word) : Nibble := w.extractLsb 3 0
/-- Field NN, w[7:0] (R102). -/
def fieldNN (w : Word) : Byte := w.extractLsb 7 0
/-- Field NNN, w[11:0] (R102). -/
def fieldNNN (w : Word) : Imm12 := w.extractLsb 11 0

/-- The word of two bytes in fetch order: big-endian, the byte at the lower address in bits 15:8 (R73). -/
def wordOfBytes (hi lo : Byte) : Word := hi ++ lo

/-- The high byte of a word, stored at the lower address (R73). -/
def highByte (w : Word) : Byte := w.extractLsb 15 8
/-- The low byte of a word, stored at the higher address (R73). -/
def lowByte (w : Word) : Byte := w.extractLsb 7 0

/-- Family 0 by its low byte: 00E0, 00EE, 00C0 to 00CF, 00FB to 00FF (R106). -/
def decodeFamily0Low (w : Word) : Instr :=
  match (fieldNN w).toNat with
  | 0xE0 => .cls
  | 0xEE => .ret
  | 0xFB => .scr
  | 0xFC => .scl
  | 0xFD => .exit
  | 0xFE => .low
  | 0xFF => .high
  | _    => if w.extractLsb 7 4 = (0xC : Nibble) then .scd (fieldN w) else .unlisted w

/-- Family 0 (R106): with FAMILY0_MATCH = FULL12 a word with w[11:8] ≠ 0 is unlisted; with LOWBYTE w[11:8] is
ignored. -/
def decodeFamily0 (m : Family0Match) (w : Word) : Instr :=
  match m with
  | .full12  => if w.extractLsb 11 8 = (0 : Nibble) then decodeFamily0Low w else .unlisted w
  | .lowByte => decodeFamily0Low w

/-- Family 8 by N (R107). -/
def decodeFamily8 (w : Word) : Instr :=
  match (fieldN w).toNat with
  | 0x0 => .ldVxVy (fieldX w) (fieldY w)
  | 0x1 => .or (fieldX w) (fieldY w)
  | 0x2 => .and (fieldX w) (fieldY w)
  | 0x3 => .xor (fieldX w) (fieldY w)
  | 0x4 => .addVxVy (fieldX w) (fieldY w)
  | 0x5 => .sub (fieldX w) (fieldY w)
  | 0x6 => .shr (fieldX w) (fieldY w)
  | 0x7 => .subn (fieldX w) (fieldY w)
  | 0xE => .shl (fieldX w) (fieldY w)
  | _   => .unlisted w

/-- Family E by NN (R108). -/
def decodeFamilyE (w : Word) : Instr :=
  match (fieldNN w).toNat with
  | 0x9E => .skp (fieldX w)
  | 0xA1 => .sknp (fieldX w)
  | _    => .unlisted w

/-- Family F by NN (R109). -/
def decodeFamilyF (w : Word) : Instr :=
  match (fieldNN w).toNat with
  | 0x07 => .ldVxDt (fieldX w)
  | 0x0A => .ldVxK (fieldX w)
  | 0x15 => .ldDtVx (fieldX w)
  | 0x18 => .ldStVx (fieldX w)
  | 0x1E => .addIVx (fieldX w)
  | 0x29 => .ldF (fieldX w)
  | 0x33 => .ldB (fieldX w)
  | 0x55 => .ldMemVx (fieldX w)
  | 0x65 => .ldVxMem (fieldX w)
  | _    => .unlisted w

/-- The instruction a word selects: the top nibble selects the family, and families 0, 8, E and F dispatch further
(R105). A function of the word and FAMILY0_MATCH alone (R105, R116). -/
def decode (m : Family0Match) (w : Word) : Instr :=
  match (fieldF w).toNat with
  | 0x0 => decodeFamily0 m w
  | 0x1 => .jp (fieldNNN w)
  | 0x2 => .call (fieldNNN w)
  | 0x3 => .seVxNn (fieldX w) (fieldNN w)
  | 0x4 => .sneVxNn (fieldX w) (fieldNN w)
  | 0x5 => .seVxVy (fieldX w) (fieldY w) (fieldN w)
  | 0x6 => .ldVxNn (fieldX w) (fieldNN w)
  | 0x7 => .addVxNn (fieldX w) (fieldNN w)
  | 0x8 => decodeFamily8 w
  | 0x9 => .sneVxVy (fieldX w) (fieldY w) (fieldN w)
  | 0xA => .ldI (fieldNNN w)
  | 0xB => .jpV0 (fieldNNN w)
  | 0xC => .rnd (fieldX w) (fieldNN w)
  | 0xD => .drw (fieldX w) (fieldY w) (fieldN w)
  | 0xE => decodeFamilyE w
  | _   => decodeFamilyF w

/-- Why a byte string is not decoded. -/
inductive DecodeError where
  /-- Fewer than the two bytes an instruction has (R100). Raised by `decodeBytes` only; memory always holds both bytes. -/
  | truncated
  deriving DecidableEq, Repr

/-- Decode the first instruction of a byte string and answer it with the rest: two bytes, big-endian (R100, R101). -/
def decodeBytes (m : Family0Match) : List Byte → Except DecodeError (Instr × List Byte)
  | hi :: lo :: rest => .ok (decode m (wordOfBytes hi lo), rest)
  | _                => .error .truncated

/-- A register index as a 4-bit field (R102). -/
def regField (x : RegIx) : Nibble := BitVec.ofFin x

/-- A word of four nibbles, most significant first (R9). -/
def nibbles (a b c d : Nibble) : Word := a ++ b ++ c ++ d

/-- A word of a family nibble, an X field and an NN field (R102). -/
def wordXNN (f : Nibble) (x : RegIx) (nn : Byte) : Word := f ++ regField x ++ nn

/-- A word of a family nibble and an NNN field (R102). -/
def wordNNN (f : Nibble) (nnn : Imm12) : Word := f ++ nnn

/-- The word of an instruction, from the patterns of R114. -/
def encode : Instr → Word
  | .cls            => 0x00E0
  | .ret            => 0x00EE
  | .scd n          => nibbles 0x0 0x0 0xC n
  | .scr            => 0x00FB
  | .scl            => 0x00FC
  | .exit           => 0x00FD
  | .low            => 0x00FE
  | .high           => 0x00FF
  | .jp nnn         => wordNNN 0x1 nnn
  | .call nnn       => wordNNN 0x2 nnn
  | .seVxNn x nn    => wordXNN 0x3 x nn
  | .sneVxNn x nn   => wordXNN 0x4 x nn
  | .seVxVy x y n   => nibbles 0x5 (regField x) (regField y) n
  | .ldVxNn x nn    => wordXNN 0x6 x nn
  | .addVxNn x nn   => wordXNN 0x7 x nn
  | .ldVxVy x y     => nibbles 0x8 (regField x) (regField y) 0x0
  | .or x y         => nibbles 0x8 (regField x) (regField y) 0x1
  | .and x y        => nibbles 0x8 (regField x) (regField y) 0x2
  | .xor x y        => nibbles 0x8 (regField x) (regField y) 0x3
  | .addVxVy x y    => nibbles 0x8 (regField x) (regField y) 0x4
  | .sub x y        => nibbles 0x8 (regField x) (regField y) 0x5
  | .shr x y        => nibbles 0x8 (regField x) (regField y) 0x6
  | .subn x y       => nibbles 0x8 (regField x) (regField y) 0x7
  | .shl x y        => nibbles 0x8 (regField x) (regField y) 0xE
  | .sneVxVy x y n  => nibbles 0x9 (regField x) (regField y) n
  | .ldI nnn        => wordNNN 0xA nnn
  | .jpV0 nnn       => wordNNN 0xB nnn
  | .rnd x nn       => wordXNN 0xC x nn
  | .drw x y n      => nibbles 0xD (regField x) (regField y) n
  | .skp x          => wordXNN 0xE x 0x9E
  | .sknp x         => wordXNN 0xE x 0xA1
  | .ldVxDt x       => wordXNN 0xF x 0x07
  | .ldVxK x        => wordXNN 0xF x 0x0A
  | .ldDtVx x       => wordXNN 0xF x 0x15
  | .ldStVx x       => wordXNN 0xF x 0x18
  | .addIVx x       => wordXNN 0xF x 0x1E
  | .ldF x          => wordXNN 0xF x 0x29
  | .ldB x          => wordXNN 0xF x 0x33
  | .ldMemVx x      => wordXNN 0xF x 0x55
  | .ldVxMem x      => wordXNN 0xF x 0x65
  | .unlisted w     => w

/-- The mask and match of an instruction's row of spec/opcode_table.json under FULL12; the UNLISTED row, the complement of
the others, has none. -/
def tableRow : Instr → Option (Word × Word)
  | .cls           => some (0xFFFF, 0x00E0)
  | .ret           => some (0xFFFF, 0x00EE)
  | .scd _         => some (0xFFF0, 0x00C0)
  | .scr           => some (0xFFFF, 0x00FB)
  | .scl           => some (0xFFFF, 0x00FC)
  | .exit          => some (0xFFFF, 0x00FD)
  | .low           => some (0xFFFF, 0x00FE)
  | .high          => some (0xFFFF, 0x00FF)
  | .jp _          => some (0xF000, 0x1000)
  | .call _        => some (0xF000, 0x2000)
  | .seVxNn _ _    => some (0xF000, 0x3000)
  | .sneVxNn _ _   => some (0xF000, 0x4000)
  | .seVxVy _ _ _  => some (0xF000, 0x5000)
  | .ldVxNn _ _    => some (0xF000, 0x6000)
  | .addVxNn _ _   => some (0xF000, 0x7000)
  | .ldVxVy _ _    => some (0xF00F, 0x8000)
  | .or _ _        => some (0xF00F, 0x8001)
  | .and _ _       => some (0xF00F, 0x8002)
  | .xor _ _       => some (0xF00F, 0x8003)
  | .addVxVy _ _   => some (0xF00F, 0x8004)
  | .sub _ _       => some (0xF00F, 0x8005)
  | .shr _ _       => some (0xF00F, 0x8006)
  | .subn _ _      => some (0xF00F, 0x8007)
  | .shl _ _       => some (0xF00F, 0x800E)
  | .sneVxVy _ _ _ => some (0xF000, 0x9000)
  | .ldI _         => some (0xF000, 0xA000)
  | .jpV0 _        => some (0xF000, 0xB000)
  | .rnd _ _       => some (0xF000, 0xC000)
  | .drw _ _ _     => some (0xF000, 0xD000)
  | .skp _         => some (0xF0FF, 0xE09E)
  | .sknp _        => some (0xF0FF, 0xE0A1)
  | .ldVxDt _      => some (0xF0FF, 0xF007)
  | .ldVxK _       => some (0xF0FF, 0xF00A)
  | .ldDtVx _      => some (0xF0FF, 0xF015)
  | .ldStVx _      => some (0xF0FF, 0xF018)
  | .addIVx _      => some (0xF0FF, 0xF01E)
  | .ldF _         => some (0xF0FF, 0xF029)
  | .ldB _         => some (0xF0FF, 0xF033)
  | .ldMemVx _     => some (0xF0FF, 0xF055)
  | .ldVxMem _     => some (0xF0FF, 0xF065)
  | .unlisted _    => none

/-- An instruction of each listed row of spec/opcode_table.json, in the table's order, to read the rows from. -/
def tableInstrs : List Instr :=
  [.cls, .ret, .scd 0, .scr, .scl, .exit, .low, .high, .jp 0, .call 0, .seVxNn 0 0, .sneVxNn 0 0, .seVxVy 0 0 0] ++
  [.ldVxNn 0 0, .addVxNn 0 0, .ldVxVy 0 0, .or 0 0, .and 0 0, .xor 0 0, .addVxVy 0 0, .sub 0 0, .shr 0 0, .subn 0 0] ++
  [.shl 0 0, .sneVxVy 0 0 0, .ldI 0, .jpV0 0, .rnd 0 0, .drw 0 0 0, .skp 0, .sknp 0, .ldVxDt 0, .ldVxK 0, .ldDtVx 0] ++
  [.ldStVx 0, .addIVx 0, .ldF 0, .ldB 0, .ldMemVx 0, .ldVxMem 0]

/-- The rows of the opcode table as (mask, match), in the table's order. -/
def opcodeTable : List (Word × Word) := tableInstrs.filterMap tableRow

/-- Whether a word is selected by a row (mask, match). -/
def rowSelects (row : Word × Word) (w : Word) : Bool := w &&& row.1 == row.2

/-- The first word of an instruction given as a number whose bit 0 is the least significant bit of the first word, with
every bit above `nbits` zero. All rows of the table have 16 bits. -/
def tableWord (nbits w : Nat) : Word := BitVec.ofNat 16 (w % 2 ^ nbits)

/-- The host's question about a table word: the instruction the decoder reads from the word's two bytes, laid out
big-endian, under the default FAMILY0_MATCH. -/
def decodeTableWord (nbits w : Nat) : Option Instr :=
  match decodeBytes Machine.defaultParams.family0Match [highByte (tableWord nbits w), lowByte (tableWord nbits w)] with
  | .ok (i, _) => some i
  | .error _   => none

end Sys2Proof
end

