-- ==== Sys2Proof/Machine/Framebuffer.lean ====
section
/-! DEFINITION. The framebuffer's operations (spec 42_display.md R200 to R212). Rows and columns are physical unless a name
says logical; every index is reduced or bounded as R212 says. -/

namespace Sys2Proof.Machine

/-- The bit FB[r][c] (R40). Outside rows 0 to 63 and columns 0 to 127 there is no bit, and the answer is `false`; no rule
reads there (R212). -/
def Framebuffer.get (fb : Framebuffer) (r c : Nat) : Bool :=
  if h : r < 64 then fb[r].getMsbD c else false

/-- A row whose only bit is column `c`. -/
def columnMask (c : Nat) : BitVec 128 := BitVec.twoPow 128 127 >>> c

/-- FB with the bit at row `r`, column `c` inverted: XOR with a set sprite bit (R203, R204). -/
def Framebuffer.flip (fb : Framebuffer) (r c : Nat) : Framebuffer :=
  if h : r < 64 then fb.set r (fb[r] ^^^ columnMask c) else fb

/-- The framebuffer of which row r is `f r`. -/
def Framebuffer.ofRows (f : Nat → BitVec 128) : Framebuffer :=
  ⟨((List.range 64).map f).toArray, by simp⟩

/-- All bits 0 (R201). -/
def Framebuffer.clear : Framebuffer := Framebuffer.ofRows fun _ => 0

/-- Row r of FB, or a row of zeros where there is none. -/
def Framebuffer.row (fb : Framebuffer) (r : Nat) : BitVec 128 :=
  if h : r < 64 then fb[r] else 0

/-- Rows moved down by `n`, the top `n` rows cleared (R207). -/
def Framebuffer.scrollDown (fb : Framebuffer) (n : Nat) : Framebuffer :=
  Framebuffer.ofRows fun r => if n ≤ r then fb.row (r - n) else 0

/-- Every row moved 4 columns to the right, columns 0 to 3 cleared (R208). -/
def Framebuffer.scrollRight4 (fb : Framebuffer) : Framebuffer :=
  Framebuffer.ofRows fun r => fb.row r >>> 4

/-- Every row moved 4 columns to the left, columns 124 to 127 cleared (R209). -/
def Framebuffer.scrollLeft4 (fb : Framebuffer) : Framebuffer :=
  Framebuffer.ofRows fun r => fb.row r <<< 4

/-- One set sprite bit over the physical bit (r, c): the bit is inverted, and the hit is noted if it was 1 (R205). -/
def plot (r c : Nat) (a : Framebuffer × Bool) : Framebuffer × Bool :=
  (a.1.flip r c, a.2 || a.1.get r c)

/-- One set sprite bit over the logical pixel (lx, ly): the four bits of its 2×2 block in the order of R203. -/
def plotBlock (lx ly : Nat) (a : Framebuffer × Bool) : Framebuffer × Bool :=
  plot (2 * ly + 1) (2 * lx + 1) (plot (2 * ly + 1) (2 * lx) (plot (2 * ly) (2 * lx + 1) (plot (2 * ly) (2 * lx) a)))

/-- One sprite byte, `plotAt c` for each set bit, bit 7 (c = 0) first and leftmost (R203). -/
def plotByte (plotAt : Nat → Framebuffer × Bool → Framebuffer × Bool) (b : Byte) (a : Framebuffer × Bool) :
    Framebuffer × Bool :=
  (List.range 8).foldl (fun a c => if b.getMsbD c then plotAt c a else a) a

/-- The low-resolution draw from sprite row r on: row r at logical row (ys + r) mod 32, column c at logical column
(xs + c) mod 64 (R203). The flag is the collision seen so far. -/
def drawLow (xs ys : Nat) : Nat → List Byte → Framebuffer × Bool → Framebuffer × Bool
  | _, [],      a => a
  | r, b :: bs, a =>
    drawLow xs ys (r + 1) bs (plotByte (fun c => plotBlock ((xs + c) % 64) ((ys + r) % 32)) b a)

/-- One high-resolution sprite row at physical row y: byte k covers columns (xs + 8k + c) mod 128 (R204). -/
def drawHighRow (xs y : Nat) : Nat → List Byte → Framebuffer × Bool → Framebuffer × Bool
  | _, [],      a => a
  | k, b :: bs, a => drawHighRow xs y (k + 1) bs (plotByte (fun c => plot y ((xs + 8 * k + c) % 128)) b a)

/-- The high-resolution draw of the rows that are not clipped, from physical row y on; the count is of the rows that
collided so far (R204). -/
def drawHigh (xs : Nat) : Nat → List (List Byte) → Framebuffer × Nat → Framebuffer × Nat
  | _, [],          a => a
  | y, row :: rows, a =>
    let d := drawHighRow xs y 0 row (a.1, false)
    drawHigh xs (y + 1) rows (d.1, a.2 + d.2.toNat)

/-- Sprite bytes as rows of two bytes, left byte first (R204, 16×16 form). -/
def pairRows : List Byte → List (List Byte)
  | a :: b :: rest => [a, b] :: pairRows rest
  | _              => []

/-- Sprite bytes as rows of `wb` bytes, `wb` being 1 or 2 (R204). -/
def spriteRows (wb : Nat) (bytes : List Byte) : List (List Byte) :=
  if wb = 2 then pairRows bytes else bytes.map fun b => [b]

/-- The high-resolution sprite's height: 16 for N = 0, else N (R204). -/
def highHeight (n : Nibble) : Nat := if n = 0 then 16 else n.toNat

/-- The high-resolution sprite's row width in bytes: 2 for N = 0, else 1 (R204). -/
def highRowBytes (n : Nibble) : Nat := if n = 0 then 2 else 1

/-- How many rows of a sprite of height `h` at row `ys` lie above the bottom edge; the others are clipped (R204). -/
def visibleRows (h ys : Nat) : Nat := min h (64 - ys)

/-- The host's view of the framebuffer (R345): row-major, 128 × 64 with HIRES = 1, 64 × 32 with HIRES = 0 by the top-left
bit of each block. -/
def Framebuffer.view (hires : Bool) (fb : Framebuffer) : List (List Bool) :=
  if hires then (List.range 64).map fun y => (List.range 128).map fun x => fb.get y x
  else (List.range 32).map fun y => (List.range 64).map fun x => fb.get (2 * y) (2 * x)

end Sys2Proof.Machine
end

