-- ==== Sys2Proof/Machine/Memory.lean ====
section
/-! DEFINITION. The 4096-byte memory as a canonical list of cells (spec 20_memory.md R70 to R79; 10_state.md R39, R52). -/

namespace Sys2Proof.Machine

/-- MEM_SIZE (R7, R70). -/
def memSize : Nat := 4096
/-- FONT_BASE (R7, R77). -/
def fontBase : Nat := 0x050
/-- FONT_SIZE (R7, R77). -/
def fontSize : Nat := 80
/-- PROG_BASE (R7, R77). -/
def progBase : Nat := 0x200

/-- What an unlisted address reads as: the contents after construction under the default FONT_BYTES, the font at 0x050
to 0x09F and zero elsewhere (R52, R77). -/
def Memory.background (a : Nat) : Byte :=
  if fontBase ≤ a ∧ a < fontBase + fontSize then defaultFont.getD (a - fontBase) 0 else 0

/-- The byte at memory index `a` (R75): the listed cell, or the background where the rising list passes `a` by. -/
def Memory.read : Memory → Nat → Byte
  | [],          a => Memory.background a
  | (k, c) :: m, a => if a = k then c else if a < k then Memory.background a else Memory.read m a

/-- The cell to list for byte `b` at index `a`, put before `m`: none where the background already reads as `b`. -/
def Memory.consCell (a : Nat) (b : Byte) (m : Memory) : Memory :=
  if b = Memory.background a then m else (a, b) :: m

/-- Store byte `b` at memory index `a` and do nothing else (R75). -/
def Memory.write : Memory → Nat → Byte → Memory
  | [],          a, b => Memory.consCell a b []
  | (k, c) :: m, a, b =>
    if a = k then Memory.consCell a b m
    else if a < k then Memory.consCell a b ((k, c) :: m)
    else (k, c) :: Memory.write m a b

/-- Whether every listed address is above `lo`, strictly rising and below 4096, and no cell equals the background. -/
def Memory.wfFrom : Nat → Memory → Bool
  | _,  []          => true
  | lo, (k, c) :: m => decide (lo ≤ k ∧ k < memSize ∧ c ≠ Memory.background k) && Memory.wfFrom (k + 1) m

/-- The canonical form of memory: with it, memories that read alike are equal. -/
def Memory.wf (m : Memory) : Bool := Memory.wfFrom 0 m

/-- Store bytes at consecutive memory indices from `a` on, dropping those at 4096 and above (R362: "copy stops at the
boundary"). -/
def Memory.copyIn : Memory → Nat → List Byte → Memory
  | m, _, []      => m
  | m, a, b :: bs => if a < memSize then Memory.copyIn (Memory.write m a b) (a + 1) bs else m

end Sys2Proof.Machine
end

