-- ==== Sys2Proof/Machine/Ops.lean ====
section
/-! DEFINITION. The shared operations: named updates of the state, the stack, memory accesses under OOB_POLICY, the fault,
and what a step does around an instruction (spec 10_state.md; 20_memory.md R71 to R76; 30_encoding.md R101, R110, R111,
R113; 60_exceptions.md R300 to R307). -/

namespace Sys2Proof.Machine

open Sys2Proof.Config

/-! ### Named updates -/

/-- x[r], the value of general register r (R30). -/
def State.reg (s : State) (r : RegIx) : Byte := s.v[r.val]

/-- x[r] <- b (R11). -/
def State.setReg (s : State) (r : RegIx) (b : Byte) : State := { s with v := s.v.set r.val b }

/-- x[0xF] <- b, the flag write, the last register write of a step (R31). -/
def State.setFlag (s : State) (b : Byte) : State := s.setReg vF b

/-- pc <- target (R110). -/
def State.setPc (s : State) (target : Word) : State := { s with pc := target }

/-- pc <- pc + 2, the generic advance (R110). -/
def State.advance (s : State) : State := s.setPc (s.pc + 2)

/-- pc <- pc + 4 when the skip is taken, else pc + 2 (R110, R143). -/
def State.skipIf (s : State) (taken : Bool) : State := if taken then s.setPc (s.pc + 4) else s.advance

/-- I <- a (R35). -/
def State.setI (s : State) (a : Word) : State := { s with i := a }

/-- DT <- b (R38). -/
def State.setDt (s : State) (b : Byte) : State := { s with dt := b }

/-- ST <- b (R38). -/
def State.setSt (s : State) (b : Byte) : State := { s with st := b }

/-- MEM as a whole. -/
def State.setMem (s : State) (m : Memory) : State := { s with mem := m }

/-- FB as a whole. -/
def State.setFb (s : State) (fb : Framebuffer) : State := { s with fb := fb }

/-- HIRES <- b (R41). -/
def State.setHires (s : State) (b : Bool) : State := { s with hires := b }

/-- KEY[k] <- b (R42). -/
def State.setKey (s : State) (k : RegIx) (b : Bool) : State := { s with key := s.key.set k.val b }

/-- AWAIT <- 1; AWAIT_REG <- r (R43, R44, R273). -/
def State.beginWait (s : State) (r : RegIx) : State := { s with awaiting := true, awaitReg := r }

/-- AWAIT <- 0 (R43, R332). -/
def State.endWait (s : State) : State := { s with awaiting := false }

/-- EXIT <- 1 (R45). -/
def State.setExit (s : State) : State := { s with exit := true }

/-- FAULT <- c (R46). -/
def State.setFault (s : State) (c : FaultCode) : State := { s with fault := c }

/-- CYCLE_COST <- n (R47). -/
def State.setCycleCost (s : State) (n : Nat) : State := { s with cycleCost := n }

/-- CLK_ACC <- q (R48). -/
def State.setClkAcc (s : State) (q : Rat) : State := { s with clkAcc := q }

/-- TMR_ACC <- q (R48). -/
def State.setTmrAcc (s : State) (q : Rat) : State := { s with tmrAcc := q }

/-- The next draw is the one after this (R11, R181). -/
def State.countDraw (s : State) : State := { s with randDraws := s.randDraws + 1 }

/-! ### The return-address stack (R36) -/

/-- STACK[SP] <- a; SP <- SP + 1, or nothing where SP = 16 (R142). -/
def State.push (s : State) (a : Word) : Option State :=
  if h : s.sp.val < 16 then
    some { s with stack := s.stack.set s.sp.val a, sp := ⟨s.sp.val + 1, by omega⟩ }
  else none

/-- STACK[SP − 1] and the state with SP one less, the entry kept (R36, R140); nothing where SP = 0. -/
def State.pop (s : State) : Option (Word × State) :=
  if h : 0 < s.sp.val then
    some (s.stack[s.sp.val - 1]'(by omega), { s with sp := ⟨s.sp.val - 1, by omega⟩ })
  else none

/-! ### Memory accesses (R71, R72) -/

/-- Addr(a): the memory index of a computed address (R72). -/
def memIndex (p : OobPolicy) (a : Nat) : Except Refusal Nat :=
  match p with
  | .wrap   => .ok (a % memSize)
  | .refuse => if a < memSize then .ok a else .error (.addressOutOfRange a)

/-- MemRead(a, 1) (R11). -/
def State.readByte (s : State) (a : Nat) : Except Refusal Byte :=
  match memIndex s.params.oobPolicy a with
  | .ok k    => .ok (s.mem.read k)
  | .error r => .error r

/-- MemWrite(a, 1, b) (R11). -/
def State.writeByte (s : State) (a : Nat) (b : Byte) : Except Refusal State :=
  match memIndex s.params.oobPolicy a with
  | .ok k    => .ok (s.setMem (s.mem.write k b))
  | .error r => .error r

/-- `n` byte reads at a, a + 1, … in rising order (R71). -/
def State.readBytes (s : State) : Nat → Nat → Except Refusal (List Byte)
  | _, 0     => .ok []
  | a, n + 1 =>
    match s.readByte a with
    | .error r => .error r
    | .ok b    =>
      match s.readBytes (a + 1) n with
      | .error r => .error r
      | .ok bs   => .ok (b :: bs)

/-- Byte writes at a, a + 1, … in rising order (R71). -/
def State.writeBytes : State → Nat → List Byte → Except Refusal State
  | s, _, []      => .ok s
  | s, a, b :: bs =>
    match s.writeByte a b with
    | .error r => .error r
    | .ok t    => t.writeBytes (a + 1) bs

/-- Go on with a value, or end the step in the refusal that took its place. -/
def orRefuse {α : Type} (v : Except Refusal α) (k : α → Result) : Result :=
  match v with
  | .ok a    => k a
  | .error r => .refused r

/-! ### The fault: the core's one exception (R300 to R307)

There is no trap: nothing is saved, no mode changes and no handler runs (R306). The step ends in the fault outcome, which
carries the recorded address, and FAULT takes the cause. There is no return from a fault (R307). -/

/-- The cause code a fault leaves in FAULT (R303). -/
def faultCode : Fault → FaultCode
  | .stackUnderflow _   => .stackUnderflow
  | .stackOverflow _    => .stackOverflow
  | .noStepAfterFault c => c

/-- `raise f` (R11): the instruction writes nothing and the step ends in the fault outcome (R302). -/
def raiseFault (f : Fault) : Result := .fault f

/-- The state a fault leaves: the state before the instruction with FAULT set to the cause, nothing else changed (R302,
R306). -/
def State.recordFault (s : State) (f : Fault) : State := s.setFault (faultCode f)

/-! ### Around an instruction (R111) -/

/-- The first two lines of Step(): no step exists after a fault (R302), and a step while awaiting a key changes nothing
(R334). -/
def beforeFetch (s : State) : Option Result :=
  if s.fault ≠ .none then some (.fault (.noStepAfterFault s.fault))
  else if s.awaiting then some (.next s)
  else none

/-- The word at pc: two byte reads at pc and pc + 1, big-endian (R73, R101). -/
def fetchWord (s : State) : Except Refusal Word :=
  match s.readByte s.pc.toNat with
  | .error r => .error r
  | .ok hi   =>
    match s.readByte (s.pc.toNat + 1) with
    | .error r => .error r
    | .ok lo   => .ok (wordOfBytes hi lo)

/-- What COST may look at (R113, R374). -/
def costInputs (w : Word) (pre post : State) : CostInputs where
  word     := w
  pcBefore := pre.pc
  pcAfter  := post.pc
  iBefore  := pre.i
  iAfter   := post.i
  vfAfter  := post.reg vF

/-- COST(w, pre, post): a free value from 1 to MAX_CATCHUP_CYCLES (R113, R325, D25). -/
def accurateCost (w : Word) (pre post : State) : Nat :=
  1 + Config.costOffset (costInputs w pre post) % pre.params.maxCatchupCycles

/-- The CYCLE_COST an executed instruction writes: 1 in FIXED mode, COST in ACCURATE mode (R113). -/
def instructionCost (w : Word) (pre post : State) : Nat :=
  match pre.timingMode with
  | .fixed    => 1
  | .accurate => accurateCost w pre post

/-- The last line of Step(): an executed instruction writes CYCLE_COST; a fault or a refusal writes nothing (R113). -/
def finishStep (w : Word) (pre : State) : Result → Result
  | .next post => .next (post.setCycleCost (instructionCost w pre post))
  | .fault f   => .fault f
  | .refused r => .refused r

/-- `s` with the word `w` where the next step fetches it, big-endian at pc (R101); the two run-state items a fetch waits
on, FAULT and AWAIT, are cleared (R111). -/
def State.placeWord (s : State) (w : Word) : State :=
  { s with
    mem      := (s.mem.write (s.pc.toNat % memSize) (highByte w)).write ((s.pc.toNat + 1) % memSize) (lowByte w)
    fault    := .none
    awaiting := false }

end Sys2Proof.Machine
end

