-- ==== Sys2Proof/Machine/Operands.lean ====
section
/-! DEFINITION. Every operand form of the core (spec 30_encoding.md R104; 20_memory.md R71): registers, zero-extended
immediates, the shift source, the key index, the glyph address, the block of registers. -/

namespace Sys2Proof.Machine

open Sys2Proof.Config

/-- NNN as a 16-bit value, zero-extended (R104). -/
def immAddress (nnn : Imm12) : Word := nnn.setWidth 16

/-- A register's value zero-extended to 16 bits (R147, R241). -/
def regWord (s : State) (x : RegIx) : Word := (s.reg x).setWidth 16

/-- The source of a shift: VY with LEGACY_SHIFT, else VX (R178, R180). -/
def shiftSource (s : State) (x y : RegIx) : Byte := if s.legacyShift then s.reg y else s.reg x

/-- The key VX names: its low four bits, or a refusal above 0xF under KEY_INDEX_POLICY = REFUSE (R270). -/
def keyIndex (s : State) (x : RegIx) : Except Refusal RegIx :=
  match s.params.keyIndexPolicy with
  | .lowNibble => .ok ((s.reg x).extractLsb 3 0).toFin
  | .refuse    =>
    if (s.reg x).toNat ≤ 0xF then .ok ((s.reg x).extractLsb 3 0).toFin else .error (.keyIndexRange (s.reg x))

/-- KEY[k] (R42). -/
def State.keyDown (s : State) (k : RegIx) : Bool := s.key[k.val]

/-- The address of the glyph of digit `d`: 0x050 + 5·d, and above 0xF as FONT_INDEX_POLICY says (R242). -/
def fontGlyphAddress (p : FontIndexPolicy) (d : Byte) : Except Refusal Word :=
  if d.toNat ≤ 0xF then .ok (BitVec.ofNat 16 (0x050 + 5 * d.toNat))
  else
    match p with
    | .full      => .ok (BitVec.ofNat 16 (0x050 + 5 * d.toNat))
    | .lowNibble => .ok (BitVec.ofNat 16 (0x050 + 5 * (d &&& 0xF).toNat))
    | .refuse    => .error (.fontDigitRange d)

/-- The values of V0 to VX, V0 first (R244). -/
def regBlock (s : State) (x : RegIx) : List Byte := (s.v.toList).take (x.val + 1)

/-- Vk <- the first byte, Vk+1 <- the next, … (R245); bytes past VF have no register. -/
def State.setRegsFrom : State → Nat → List Byte → State
  | s, _, []      => s
  | s, k, b :: bs =>
    if h : k < 16 then (s.setReg ⟨k, h⟩ b).setRegsFrom (k + 1) bs else s

/-- The three decimal digits of a byte: hundreds, tens, ones (R243). -/
def bcdDigits (b : Byte) : List Byte :=
  [BitVec.ofNat 8 (b.toNat / 100), BitVec.ofNat 8 (b.toNat / 10 % 10), BitVec.ofNat 8 (b.toNat % 10)]

/-- What the legacy FX55 and FX65 add to I: X + 1, or X (LEGACY_MEMOP_INCREMENT, R244, D10). -/
def memopIncrement (p : MemopIncrement) (x : RegIx) : Word :=
  match p with
  | .xPlusOne => BitVec.ofNat 16 (x.val + 1)
  | .x        => BitVec.ofNat 16 x.val

/-- I after FX55 or FX65: moved on with LEGACY_MEMOP, else unchanged (R244, R245). -/
def State.afterMemop (s : State) (x : RegIx) : State :=
  if s.legacyMemop then s.setI (s.i + memopIncrement s.params.legacyMemopIncrement x) else s

/-- The sprite's column before any offset, VX mod the screen's width (R203, R204). -/
def spriteX (s : State) (x : RegIx) : Nat := (s.reg x).toNat % (if s.hires then 128 else 64)

/-- The sprite's row before any offset, VY mod the screen's height (R203, R204). -/
def spriteY (s : State) (y : RegIx) : Nat := (s.reg y).toNat % (if s.hires then 64 else 32)

end Sys2Proof.Machine
end

