-- ==== Sys2Proof/Machine/Alu.lean ====
section
/-! DEFINITION. Register loads and arithmetic (spec 41_alu.md R170 to R182). Operands are read before any write, and a
flag is the last register write, so X = 0xF ends with the flag (R13, R31). -/

namespace Sys2Proof.Machine

/-- x[X] <- b; pc <- pc + 2. -/
def writeReg (x : RegIx) (b : Byte) (s : State) : Result := .next (s.setReg x b).advance

/-- x[X] <- b; x[0xF] <- flag; pc <- pc + 2. -/
def writeRegFlag (x : RegIx) (b : Byte) (flag : Bool) (s : State) : Result :=
  .next ((s.setReg x b).setFlag (flagByte flag)).advance

/-- 6XNN LD (R170). -/
def execLdVxNn (x : RegIx) (nn : Byte) (s : State) : Result := writeReg x nn s

/-- 7XNN ADD (R171); VF is not a flag here. -/
def execAddVxNn (x : RegIx) (nn : Byte) (s : State) : Result := writeReg x (s.reg x + nn) s

/-- 8XY0 LD (R172). -/
def execLdVxVy (x y : RegIx) (s : State) : Result := writeReg x (s.reg y) s

/-- 8XY1 OR (R173). -/
def execOr (x y : RegIx) (s : State) : Result := writeReg x (s.reg x ||| s.reg y) s

/-- 8XY2 AND (R174). -/
def execAnd (x y : RegIx) (s : State) : Result := writeReg x (s.reg x &&& s.reg y) s

/-- 8XY3 XOR (R175). -/
def execXor (x y : RegIx) (s : State) : Result := writeReg x (s.reg x ^^^ s.reg y) s

/-- 8XY4 ADD (R176). -/
def execAddVxVy (x y : RegIx) (s : State) : Result :=
  writeRegFlag x (s.reg x + s.reg y) (carryFlag (s.reg x) (s.reg y)) s

/-- 8XY5 SUB (R177). -/
def execSub (x y : RegIx) (s : State) : Result :=
  writeRegFlag x (s.reg x - s.reg y) (notBorrowFlag (s.reg x) (s.reg y)) s

/-- 8XY7 SUBN (R179). -/
def execSubn (x y : RegIx) (s : State) : Result :=
  writeRegFlag x (s.reg y - s.reg x) (notBorrowFlag (s.reg y) (s.reg x)) s

/-- The writes of a shift (R178, R180): VX, then VY where the legacy shift also writes VY (D9), then VF. -/
def writeShift (x y : RegIx) (b : Byte) (out : Bool) (s : State) : Result :=
  let t := s.setReg x b
  let u := if s.legacyShift && s.params.legacyShiftWritesVy && y != x then t.setReg y b else t
  .next (u.setFlag (flagByte out)).advance

/-- 8XY6 SHR (R178). -/
def execShr (x y : RegIx) (s : State) : Result :=
  writeShift x y (shiftSource s x y >>> 1) (shiftedOutRight (shiftSource s x y)) s

/-- 8XYE SHL (R180). -/
def execShl (x y : RegIx) (s : State) : Result :=
  writeShift x y (shiftSource s x y <<< 1) (shiftedOutLeft (shiftSource s x y)) s

/-- CXNN RND with the drawn byte `r` as an argument (R181). -/
def randomAnd (r : Byte) (x : RegIx) (nn : Byte) (s : State) : Result :=
  .next ((s.setReg x (r &&& nn)).countDraw).advance

/-- CXNN RND (R181): the byte is the next draw, a free value. -/
def execRnd (x : RegIx) (nn : Byte) (s : State) : Result := randomAnd (Config.randByte s.randDraws) x nn s

end Sys2Proof.Machine
end

