-- ==== Sys2Proof/Machine/Control.lean ====
section
/-! DEFINITION. Control transfer (spec 40_control.md R140 to R148). -/

namespace Sys2Proof.Machine

/-- 00EE RET (R140): pc becomes the popped call site + 2; StackUnderflow where SP = 0. -/
def execRet (s : State) : Result :=
  match s.pop with
  | none        => raiseFault (.stackUnderflow s.pc)
  | some (t, u) => .next (u.setPc (t + 2))

/-- 1NNN JP (R141). -/
def execJp (nnn : Imm12) (s : State) : Result := .next (s.setPc (immAddress nnn))

/-- 2NNN CALL (R142): the address of the call itself is pushed; StackOverflow where SP = 16. -/
def execCall (nnn : Imm12) (s : State) : Result :=
  match s.push s.pc with
  | none   => raiseFault (.stackOverflow s.pc)
  | some u => .next (u.setPc (immAddress nnn))

/-- 3XNN SE (R143). -/
def execSeVxNn (x : RegIx) (nn : Byte) (s : State) : Result := .next (s.skipIf (s.reg x == nn))

/-- 4XNN SNE (R144). -/
def execSneVxNn (x : RegIx) (nn : Byte) (s : State) : Result := .next (s.skipIf (s.reg x != nn))

/-- 5XYN SE (R145); N is ignored. -/
def execSeVxVy (x y : RegIx) (_n : Nibble) (s : State) : Result := .next (s.skipIf (s.reg x == s.reg y))

/-- 9XYN SNE (R146); N is ignored. -/
def execSneVxVy (x y : RegIx) (_n : Nibble) (s : State) : Result := .next (s.skipIf (s.reg x != s.reg y))

/-- BNNN JP V0 (R147): the sum is kept in full in the 16-bit pc. -/
def execJpV0 (nnn : Imm12) (s : State) : Result := .next (s.setPc (immAddress nnn + regWord s 0))

end Sys2Proof.Machine
end

