-- ==== Sys2Proof/Machine/Display.lean ====
section
/-! DEFINITION. Display opcodes (spec 42_display.md R200 to R212). -/

namespace Sys2Proof.Machine

/-- 00E0 CLS (R201). -/
def execCls (s : State) : Result := .next (s.setFb Framebuffer.clear).advance

/-- 00CN SCD (R207), physical rows in both modes. -/
def execScd (n : Nibble) (s : State) : Result := .next (s.setFb (s.fb.scrollDown n.toNat)).advance

/-- 00FB SCR (R208), physical columns in both modes. -/
def execScr (s : State) : Result := .next (s.setFb s.fb.scrollRight4).advance

/-- 00FC SCL (R209), physical columns in both modes. -/
def execScl (s : State) : Result := .next (s.setFb s.fb.scrollLeft4).advance

/-- 00FE LOW (R210). -/
def execLow (s : State) : Result := .next (s.setHires false).advance

/-- 00FF HIGH (R211). -/
def execHigh (s : State) : Result := .next (s.setHires true).advance

/-- FB <- fb; x[0xF] <- flag; pc <- pc + 2: the end of either draw path, VF last (R202). -/
def State.drawn (s : State) (fb : Framebuffer) (flag : Byte) : State := ((s.setFb fb).setFlag flag).advance

/-- The low-resolution path: N rows of one byte, every pixel wrapping on both axes (R203). -/
def drawLowPath (x y : RegIx) (n : Nibble) (s : State) : Result :=
  orRefuse (s.readBytes s.i.toNat n.toNat) fun bytes =>
    let d := drawLow (spriteX s x) (spriteY s y) 0 bytes (s.fb, false)
    .next (s.drawn d.1 (flagByte d.2))

/-- The high-resolution path (R204): the bytes of the rows above the bottom edge are read and drawn, the rows below it are
clipped and counted. -/
def drawHighPath (x y : RegIx) (n : Nibble) (s : State) : Result :=
  let visible := visibleRows (highHeight n) (spriteY s y)
  orRefuse (s.readBytes s.i.toNat (highRowBytes n * visible)) fun bytes =>
    let d := drawHigh (spriteX s x) (spriteY s y) (spriteRows (highRowBytes n) bytes) (s.fb, 0)
    .next (s.drawn d.1 (rowCountFlag d.2 (highHeight n - visible)))

/-- DXYN DRW (R202). -/
def execDrw (x y : RegIx) (n : Nibble) (s : State) : Result :=
  if s.hires then drawHighPath x y n s else drawLowPath x y n s

end Sys2Proof.Machine
end

