-- ==== Sys2Proof/Machine/IndexMemory.lean ====
section
/-! DEFINITION. Address register and memory opcodes (spec 43_index_memory.md R240 to R245). -/

namespace Sys2Proof.Machine

/-- ANNN LD I (R240). -/
def execLdI (nnn : Imm12) (s : State) : Result := .next (s.setI (immAddress nnn)).advance

/-- FX1E ADD I (R241); no flag. -/
def execAddIVx (x : RegIx) (s : State) : Result := .next (s.setI (s.i + regWord s x)).advance

/-- FX29 LD F (R242). -/
def execLdF (x : RegIx) (s : State) : Result :=
  orRefuse (fontGlyphAddress s.params.fontIndexPolicy (s.reg x)) fun a => .next (s.setI a).advance

/-- FX33 LD B (R243): hundreds, tens, ones at I, I + 1, I + 2. -/
def execLdB (x : RegIx) (s : State) : Result :=
  orRefuse (s.writeBytes s.i.toNat (bcdDigits (s.reg x))) fun t => .next t.advance

/-- FX55 LD [I], VX (R244). -/
def execLdMemVx (x : RegIx) (s : State) : Result :=
  orRefuse (s.writeBytes s.i.toNat (regBlock s x)) fun t => .next (t.afterMemop x).advance

/-- FX65 LD VX, [I] (R245); every address comes from the I before the step. -/
def execLdVxMem (x : RegIx) (s : State) : Result :=
  orRefuse (s.readBytes s.i.toNat (x.val + 1)) fun bytes => .next ((s.setRegsFrom 0 bytes).afterMemop x).advance

end Sys2Proof.Machine
end

