-- ==== Sys2Proof/Machine/System.lean ====
section
/-! DEFINITION. System opcodes and unlisted words (spec 45_system.md R290 to R293). -/

namespace Sys2Proof.Machine

/-- 00FD EXIT (R290): a flag for the host; the interpreter goes on. -/
def execExit (s : State) : Result := .next s.setExit.advance

/-- An unlisted word (R291): only the generic advance. -/
def execUnlisted (_w : Word) (s : State) : Result := .next s.advance

end Sys2Proof.Machine
end

