-- ==== Sys2Proof/Machine/TimerKey.lean ====
section
/-! DEFINITION. Key and timer opcodes (spec 44_timer_key.md R270 to R275). -/

namespace Sys2Proof.Machine

/-- EX9E SKP (R270). -/
def execSkp (x : RegIx) (s : State) : Result := orRefuse (keyIndex s x) fun k => .next (s.skipIf (s.keyDown k))

/-- EXA1 SKNP (R271). -/
def execSknp (x : RegIx) (s : State) : Result := orRefuse (keyIndex s x) fun k => .next (s.skipIf (!s.keyDown k))

/-- FX07 LD VX, DT (R272). -/
def execLdVxDt (x : RegIx) (s : State) : Result := .next (s.setReg x s.dt).advance

/-- FX0A LD VX, K (R273): the wait begins and pc is already past the instruction; VX is written by the key press. -/
def execLdVxK (x : RegIx) (s : State) : Result := .next (s.beginWait x).advance

/-- FX15 LD DT, VX (R274); TMR_ACC is not changed. -/
def execLdDtVx (x : RegIx) (s : State) : Result := .next (s.setDt (s.reg x)).advance

/-- FX18 LD ST, VX (R275). -/
def execLdStVx (x : RegIx) (s : State) : Result := .next (s.setSt (s.reg x)).advance

end Sys2Proof.Machine
end

