-- ==== Sys2Proof/Machine/Step.lean ====
section
/-! DEFINITION. One step of the interpreter (spec 30_encoding.md R111). Everything it is made of stands in Machine/Ops.lean
and Decode.lean. -/

namespace Sys2Proof.Machine

/-- Step() (R111): nothing after a fault, nothing while awaiting a key; else fetch, decode, execute and write CYCLE_COST. -/
def step (s : State) : Host.Outcome State Fault Refusal :=
  match beforeFetch s with
  | some o => o
  | none   => orRefuse (fetchWord s) fun w => finishStep w s (exec (decode s.params.family0Match w) s)

/-- The host's placing of an instruction for the very next step: its word at pc, with the core neither faulted nor
awaiting a key (log entry 7). Under OOB_POLICY = REFUSE with pc + 1 above 0xFFF there is no place a step fetches from. -/
def State.withFetchWord (s : State) (nbits w : Nat) : State := s.placeWord (tableWord nbits w)

end Sys2Proof.Machine
end

