-- ==== Sys2Proof/Machine/Clock.lean ====
section
/-! DEFINITION. The clock unit, which turns elapsed time into interpreter steps (spec 60_exceptions.md R320 to R325). -/

namespace Sys2Proof.Machine

open Sys2Proof.Config

/-- The constraints of R325 on the numbers of the clock; COST meets its own by `accurateCost`. -/
def clockParametersOk (s : State) : Bool :=
  decide (0 < s.cycleRate ∧ 0 < s.params.accurateBaseRate ∧ 1 ≤ s.params.maxCatchupCycles)

/-- P, the seconds of one cycle (R321). -/
def clockPeriod (s : State) : Rat :=
  match s.timingMode with
  | .fixed    => 1 / s.cycleRate
  | .accurate => 1 / s.params.accurateBaseRate

/-- c, the cycles the next step is charged: 1 in FIXED mode, else the last executed instruction's cost (R321). -/
def stepCharge (s : State) : Nat :=
  match s.timingMode with
  | .fixed    => 1
  | .accurate => s.cycleCost

/-- What one issued step did: the state after it, FAULT set where it faulted (R302), and the fault, if any. -/
structure Issued where
  state  : State
  report : Option Fault
  deriving DecidableEq, Repr

/-- One Step() as the clock issues it: a fault is recorded in FAULT and reported (R302, R321); a refusal leaves the clock
without a move. -/
def issueStep (s : State) : Except Refusal Issued :=
  match step s with
  | .next t    => .ok ⟨t, none⟩
  | .fault f   => .ok ⟨s.recordFault f, some f⟩
  | .refused r => .error r

/-- What a clock update did: the state after it, how many steps it issued, and the fault that ended it, if any. -/
structure ClockResult where
  state  : State
  steps  : Nat
  report : Option Fault
  deriving DecidableEq, Repr

/-- The loop of ClockUpdate (R321) with period `p`, for at most `fuel` more rounds, `n` steps having been issued. -/
def clockLoop (p : Rat) : Nat → Nat → State → Except Refusal ClockResult
  | 0,        n, s => .ok ⟨s, n, none⟩
  | fuel + 1, n, s =>
    if s.clkAcc < stepCharge s * p then .ok ⟨s, n, none⟩
    else
      match issueStep (s.setClkAcc (s.clkAcc - stepCharge s * p)) with
      | .error r => .error r
      | .ok d    =>
        match d.report with
        | some f => .ok ⟨d.state, n + 1, some f⟩
        | none   => clockLoop p fuel (n + 1) d.state

/-- The first line of ClockUpdate: the elapsed time is added and the accumulator capped (R321). -/
def clockAccumulate (dt : Elapsed) (s : State) : State :=
  s.setClkAcc (min (s.clkAcc + dt.val) (s.params.maxCatchupCycles * clockPeriod s))

/-- ClockUpdate(dt) (R321). The capped accumulator pays for at most MAX_CATCHUP_CYCLES steps of at least one cycle each
(R324), which bounds the rounds. A faulted core is issued no step (R302; log entry 8). Parameters that violate R325 are
refused. -/
def clockUpdate (dt : Elapsed) (s : State) : Except Refusal ClockResult :=
  if clockParametersOk s then
    let t := clockAccumulate dt s
    if t.fault ≠ .none then .ok ⟨t, 0, none⟩
    else clockLoop (clockPeriod s) s.params.maxCatchupCycles 0 t
  else .error .clockParameters

end Sys2Proof.Machine
end

