-- ==== Sys2Proof/Machine/InputLatch.lean ====
section
/-! DEFINITION. The input latch and the await-key state machine (spec 60_exceptions.md R330 to R335). Key indices are in
0 to 15 by their type: an index outside is a host-duty violation and has no move (R347). -/

namespace Sys2Proof.Machine

/-- A key event of the host (R340). -/
inductive KeyEvent where
  | press (k : RegIx)
  | release (k : RegIx)
  deriving DecidableEq, Repr

/-- KeyPress(k) (R330): KEY[k] is set; a wait ends and its register receives the key's index. -/
def keyPress (k : RegIx) (s : State) : State :=
  let t := s.setKey k true
  if s.awaiting then (t.setReg s.awaitReg (BitVec.ofNat 8 k.val)).endWait else t

/-- KeyRelease(k) (R331): KEY[k] is cleared and the wait is not touched. -/
def keyRelease (k : RegIx) (s : State) : State := s.setKey k false

/-- One key event. -/
def keyEvent (e : KeyEvent) (s : State) : State :=
  match e with
  | .press k   => keyPress k s
  | .release k => keyRelease k s

/-- Key events in delivery order (R335, R340). -/
def keyEvents : List KeyEvent → State → State
  | [],      s => s
  | e :: es, s => keyEvents es (keyEvent e s)

end Sys2Proof.Machine
end

