-- ==== Sys2Proof/Machine/Reset.lean ====
section
/-! DEFINITION. Construction with any parameters, and program load (spec 70_reset_and_hazards.md R360 to R366). -/

namespace Sys2Proof.Machine

open Sys2Proof.Config

/-- The four configuration inputs the host supplies (R50, R343). -/
structure HostConfig where
  legacyShift : Bool
  legacyMemop : Bool
  timingMode  : TimingMode
  cycleRate   : Rat
  deriving DecidableEq, Repr

/-- The 80 bytes that construction leaves at 0x050 to 0x09F: FONT_BYTES over zeroed memory (R360). The spec's FONT_BYTES always
has 80 bytes. DESIGN CHOICE (log entry 17), safe: of another list the bytes past the eightieth have no place and are dropped,
and the places a shorter one does not fill keep the 0x00 of step (1) of R360. -/
def fontBlock (font : List Byte) : List Byte := (font ++ List.replicate fontSize 0).take fontSize

/-- Construction (R360) of a core with the given parameters, FONT_BYTES and host configuration: memory zeroed, then the
font at 0x050 to 0x09F; every other item as in R52. A list of other than 80 font bytes, and the clamping of the supplied
CYCLE_RATE, are the model's choice (log entry 17). -/
def construct (p : Params) (font : List Byte) (h : HostConfig) : State :=
  { State.reset with
    mem         := Memory.copyIn [] fontBase (fontBlock font)
    legacyShift := h.legacyShift
    legacyMemop := h.legacyMemop
    timingMode  := h.timingMode
    cycleRate   := min h.cycleRate p.maxCycleRate
    params      := p }

/-- LoadProgram(b) (R362): the bytes are copied from 0x200 on, up to the end of memory; nothing else changes. -/
def loadProgram (b : List Byte) (s : State) : State := s.setMem (Memory.copyIn s.mem progBase b)

end Sys2Proof.Machine
end

