-- ==== Sys2Proof/Machine/Timer.lean ====
section
/-! DEFINITION. The 60 Hz timer unit (spec 60_exceptions.md R310 to R313). -/

namespace Sys2Proof.Machine

/-- 1/60 s, the period of the timers (R310). -/
def timerPeriod : Rat := 1 / 60

/-- One less, never below zero (R310). -/
def countDown (b : Byte) : Byte := if b = 0 then 0 else b - 1

/-- One 1/60 s of the timer unit: both timers count down, each on its own (R310, R311). -/
def timerTick (s : State) : State :=
  ((s.setTmrAcc (s.tmrAcc - timerPeriod)).setDt (countDown s.dt)).setSt (countDown s.st)

/-- The loop of TimerUpdate (R310), for at most as many rounds as are given. -/
def timerLoop : Nat → State → State
  | 0,     s => s
  | n + 1, s => if timerPeriod ≤ s.tmrAcc then timerLoop n (timerTick s) else s

/-- How many whole 1/60 s an accumulated time holds: the rounds the loop needs. -/
def ticksDue (q : Rat) : Nat := (q * 60).floor.toNat

/-- TimerUpdate(dt) (R310); the accumulator is not clamped (D26). -/
def timerUpdate (dt : Elapsed) (s : State) : State :=
  let t := s.setTmrAcc (s.tmrAcc + dt.val)
  timerLoop (ticksDue t.tmrAcc) t

end Sys2Proof.Machine
end

