-- ==== Sys2Proof/Machine/HostInterface.lean ====
section
/-! DEFINITION. The host interface: frames, inputs and outputs (spec 60_exceptions.md R322, R323, R340 to R347). -/

namespace Sys2Proof.Machine

/-- CYCLE_RATE <- r, clamped to MAX_CYCLE_RATE; CLK_ACC is not rescaled (R322). -/
def setCycleRate (r : Rat) (s : State) : State := { s with cycleRate := min r s.params.maxCycleRate }

/-- TIMING_MODE <- m; a change of mode sets CYCLE_COST to 1 and leaves CLK_ACC (R323). -/
def setTimingMode (m : TimingMode) (s : State) : State :=
  if m = s.timingMode then s else { s with timingMode := m, cycleCost := 1 }

/-- LEGACY_SHIFT <- b (R343). -/
def setLegacyShift (b : Bool) (s : State) : State := { s with legacyShift := b }

/-- LEGACY_MEMOP <- b (R343). -/
def setLegacyMemop (b : Bool) (s : State) : State := { s with legacyMemop := b }

/-- What the host reads at the end of a frame (R344): the framebuffer view and its mode, the sound timer and whether the
tone is on (R312), EXIT and FAULT. -/
structure Readout where
  view   : List (List Bool)
  hires  : Bool
  st     : Byte
  toneOn : Bool
  exit   : Bool
  fault  : FaultCode
  deriving DecidableEq, Repr

/-- The outputs of a state (R344, R345). -/
def readout (s : State) : Readout where
  view   := s.fb.view s.hires
  hires  := s.hires
  st     := s.st
  toneOn := s.st != 0
  exit   := s.exit
  fault  := s.fault

/-- Whether a readout is the normal end of a run: EXIT = 1 and no fault (R346). -/
def Readout.normalEnd (r : Readout) : Bool := r.exit && r.fault == .none

/-- What a frame did. -/
structure FrameResult where
  state   : State
  steps   : Nat
  report  : Option Fault
  readout : Readout
  deriving DecidableEq, Repr

/-- Frame(events, dt) (R340): key events, then the clock, then the timers, then the readout. -/
def frame (events : List KeyEvent) (dt : Elapsed) (s : State) : Except Refusal FrameResult :=
  match clockUpdate dt (keyEvents events s) with
  | .error r => .error r
  | .ok c    =>
    let t := timerUpdate dt c.state
    .ok ⟨t, c.steps, c.report, readout t⟩

/-- One action of the host between steps (R341). RAND() draws are the free value `Config.randByte`. -/
inductive HostAction where
  | loadProgram (b : List Byte)
  | frame (events : List KeyEvent) (dt : Elapsed)
  | setCycleRate (r : Rat)
  | setTimingMode (m : TimingMode)
  | setLegacyShift (b : Bool)
  | setLegacyMemop (b : Bool)

/-- The state after a host action. -/
def hostAction (a : HostAction) (s : State) : Except Refusal State :=
  match a with
  | .loadProgram b     => .ok (loadProgram b s)
  | .frame events dt   =>
    match frame events dt s with
    | .ok f    => .ok f.state
    | .error r => .error r
  | .setCycleRate r    => .ok (setCycleRate r s)
  | .setTimingMode m   => .ok (setTimingMode m s)
  | .setLegacyShift b  => .ok (setLegacyShift b s)
  | .setLegacyMemop b  => .ok (setLegacyMemop b s)

/-- A run driven by the host: its actions in order (R340, R341). -/
def hostRun : List HostAction → State → Except Refusal State
  | [],      s => .ok s
  | a :: as, s =>
    match hostAction a s with
    | .ok t    => hostRun as t
    | .error r => .error r

end Sys2Proof.Machine
end

