-- ==== Sys2Proof/Safety.lean ====
section
/-! DEFINITION. The terms claims use: what a step leaves alone, the invariant of the machine, and what counts as a safe
step. -/

namespace Sys2Proof.Machine

open Sys2Proof.Config

/-- The parts of the state a frame speaks of. -/
inductive Part where
  | regs | i | pc | sp | stack | dt | st | mem | fb | hires | key | await | exit | fault | cycleCost | clkAcc | tmrAcc
  | config | params | draws
  deriving DecidableEq, Repr

/-- Part `p` is the same in `t` as in `s`. Memory is compared by reading every byte (R75). -/
def SamePart (p : Part) (s t : State) : Prop :=
  match p with
  | .regs      => ∀ r, t.reg r = s.reg r
  | .i         => t.i = s.i
  | .pc        => t.pc = s.pc
  | .sp        => t.sp = s.sp
  | .stack     => t.stack = s.stack
  | .dt        => t.dt = s.dt
  | .st        => t.st = s.st
  | .mem       => ∀ a, t.mem.read a = s.mem.read a
  | .fb        => t.fb = s.fb
  | .hires     => t.hires = s.hires
  | .key       => t.key = s.key
  | .await     => t.awaiting = s.awaiting ∧ t.awaitReg = s.awaitReg
  | .exit      => t.exit = s.exit
  | .fault     => t.fault = s.fault
  | .cycleCost => t.cycleCost = s.cycleCost
  | .clkAcc    => t.clkAcc = s.clkAcc
  | .tmrAcc    => t.tmrAcc = s.tmrAcc
  | .config    => t.legacyShift = s.legacyShift ∧ t.legacyMemop = s.legacyMemop ∧ t.timingMode = s.timingMode ∧
                  t.cycleRate = s.cycleRate
  | .params    => t.params = s.params
  | .draws     => t.randDraws = s.randDraws

/-- Every part of the state outside the list `ps` is the same in `t` as in `s`. -/
def ChangesOnly (ps : List Part) (s t : State) : Prop := ∀ p, p ∉ ps → SamePart p s t

/-- Every general register outside the list `rs` is the same in `t` as in `s`. -/
def RegsOnly (rs : List RegIx) (s t : State) : Prop := ∀ r, r ∉ rs → t.reg r = s.reg r

/-- Every byte of memory whose index is not that of one of the `n` computed addresses from `a` on is the same in `t` as in
`s` (R71, R72). -/
def MemOnly (a n : Nat) (s t : State) : Prop :=
  ∀ j, (∀ k, k < n → memIndex s.params.oobPolicy (a + k) ≠ .ok j) → t.mem.read j = s.mem.read j

/-- The `n` computed addresses from `a` on all reach memory: always under WRAP, below 4096 under REFUSE (R72). -/
def Reachable (s : State) (a n : Nat) : Prop := s.params.oobPolicy = .refuse → a + n ≤ memSize ∨ n = 0

/-- The general registers an instruction may write (R32): VX, VF for the flag writers of R31, VY for a legacy shift that
writes it (D9), V0 to VX for FX65. -/
def registerWrites (s : State) : Instr → List RegIx
  | .ldVxNn x _ | .addVxNn x _ | .ldVxVy x _ | .or x _ | .and x _ | .xor x _ | .rnd x _ | .ldVxDt x => [x]
  | .addVxVy x _ | .sub x _ | .subn x _ => [x, vF]
  | .shr x y | .shl x y => if s.legacyShift && s.params.legacyShiftWritesVy then [x, y, vF] else [x, vF]
  | .drw _ _ _ => [vF]
  | .ldVxMem x => (List.finRange 16).filter fun r => decide (r ≤ x)
  | _ => []

/-- A result with its next state, if any, changed by `f`. -/
def mapNext (f : State → State) : Result → Result
  | .next t    => .next (f t)
  | .fault e   => .fault e
  | .refused r => .refused r

/-- Bit `c` from the left (0 to 7) of the `k`-th sprite byte from I on: bit 7 of a byte is its leftmost pixel (R203). -/
def spriteBit (s : State) (k c : Nat) : Bool := (s.mem.read ((s.i.toNat + k) % memSize)).getLsbD (7 - c)

/-- Whether a set bit of the low-resolution sprite of DXYN covers the physical bit (r, c): a set bit j of row k whose
logical pixel, wrapped on both axes, is the one whose block holds (r, c) (R200, R203). -/
def coversLow (s : State) (x y : RegIx) (n : Nibble) (r c : Nat) : Bool :=
  (List.range n.toNat).any fun k => (List.range 8).any fun j =>
    spriteBit s k j && ((s.reg x).toNat % 64 + j) % 64 == c / 2 && ((s.reg y).toNat % 32 + k) % 32 == r / 2

/-- Whether a set bit of row `k` of the high-resolution sprite of DXYN covers column `c`, columns wrapping modulo 128
(R204). -/
def coversHighRow (s : State) (x : RegIx) (n : Nibble) (k c : Nat) : Bool :=
  (List.range (8 * highRowBytes n)).any fun j =>
    spriteBit s (highRowBytes n * k + j / 8) (j % 8) && ((s.reg x).toNat % 128 + j) % 128 == c

/-- Whether a set bit of the high-resolution sprite of DXYN covers the physical bit (r, c): a bit of the row k with
(VY mod 64) + k = r, so that rows past the bottom edge cover nothing (R204). -/
def coversHigh (s : State) (x y : RegIx) (n : Nibble) (r c : Nat) : Bool :=
  (List.range (highHeight n)).any fun k => (s.reg y).toNat % 64 + k == r && coversHighRow s x n k c

/-- Whether row `k` of the high-resolution sprite counts in VF: it is clipped at the bottom edge, or one of its set bits
covers a bit that was 1 (R204, R205). -/
def countsHigh (s : State) (x y : RegIx) (n : Nibble) (k : Nat) : Bool :=
  decide (64 ≤ (s.reg y).toNat % 64 + k) ||
    (List.range 128).any fun c => s.fb.get ((s.reg y).toNat % 64 + k) c && coversHighRow s x n k c

/-- How many sprite bytes DXYN reads: N in low resolution, in high resolution those of the rows above the bottom edge
(R203, R204). -/
def spriteLength (s : State) (y : RegIx) (n : Nibble) : Nat :=
  if s.hires then highRowBytes n * visibleRows (highHeight n) ((s.reg y).toNat % 64) else n.toNat

/-- Neither faulted nor awaiting a key: a step fetches (R111). -/
def Running (s : State) : Prop := s.fault = .none ∧ s.awaiting = false

/-- The parameter choices under which the spec has no `refuse` case: the defaults of R8 for OOB_POLICY, KEY_INDEX_POLICY
and FONT_INDEX_POLICY, or LOWNIBBLE for the last. -/
def NoRefusePolicy (p : Params) : Prop :=
  p.oobPolicy = .wrap ∧ p.keyIndexPolicy = .lowNibble ∧ p.fontIndexPolicy ≠ .refuse

/-- The cycles charged for the first `n` steps from `s`, each step the charge c of the state it starts from; a step that
faults is charged as well (R321, R324). -/
def chargedCycles : Nat → State → Nat
  | 0,     _ => 0
  | n + 1, s =>
    match step s with
    | .next t => stepCharge s + chargedCycles n t
    | _       => stepCharge s

/-- The invariant of the machine: memory in canonical form; CYCLE_COST a positive integer within the cap (R47, R325); a
fault and a wait never together (R305); both accumulators non-negative, the timer's below one period (R48, R310); the clock's
numbers as R325 wants them and CYCLE_RATE clamped (R322). -/
structure Inv (s : State) : Prop where
  memWf       : s.mem.wf = true
  costPos     : 1 ≤ s.cycleCost
  costCapped  : s.cycleCost ≤ s.params.maxCatchupCycles
  faultOrWait : s.fault = .none ∨ s.awaiting = false
  clkAccNonneg : 0 ≤ s.clkAcc
  tmrAccNonneg : 0 ≤ s.tmrAcc
  tmrAccSmall : s.tmrAcc < timerPeriod
  ratePos     : 0 < s.cycleRate
  rateCapped  : s.cycleRate ≤ s.params.maxCycleRate
  basePos     : 0 < s.params.accurateBaseRate

/-- A safe step: it answers a next state. -/
def StepSafe (s : State) : Prop := ∃ t, step s = .next t

/-- A host action that keeps the host's duties on configuration: a positive cycle rate (R50, R347). -/
def HostAction.Dutiful : HostAction → Prop
  | .setCycleRate r => 0 < r
  | _               => True

end Sys2Proof.Machine
end

