-- ==== Sys2Proof/Certificates/Slice0/Obligations.lean ====
section
/-! DEFINITION. The statements for the provers, in the order of OBLIGATIONS.json. Each docstring names the rules of spec/ it
rests on; where a clause follows a choice the spec marks as its own (a D<n> of 92_eei_decisions.md) it says so. -/

open Sys2Proof Sys2Proof.Machine Sys2Proof.Config

/-! ### Encoding -/

/-- Decode and encode agree (R102, R105 to R109, R114, R115): decoding the word of a well-formed instruction gives the
instruction back, every operand at every value, under both values of FAMILY0_MATCH; and under FULL12 every one of the 65,536
words decodes to a well-formed instruction whose word it is. -/
def Obligations.DecodeAndEncodeAgree : Prop :=
  (∀ (m : Family0Match) (i : Instr), i.wf m = true → decode m (encode i) = i) ∧
  (∀ w : Word, (decode .full12 w).wf .full12 = true ∧ encode (decode .full12 w) = w)

/-- The decoder follows the rows of the opcode table: the row of the decoded instruction selects the word, no other row
does, and a word is unlisted exactly when no row selects it (R114, R115). -/
def Obligations.DecodeFollowsOpcodeTable : Prop :=
  ∀ w : Word,
    (∀ row, tableRow (decode .full12 w) = some row → row ∈ opcodeTable ∧ rowSelects row w = true) ∧
    (∀ row ∈ opcodeTable, rowSelects row w = true → tableRow (decode .full12 w) = some row) ∧
    (decode .full12 w = .unlisted w ↔ ∀ row ∈ opcodeTable, rowSelects row w = false)

/-- The unlisted words under FULL12, family by family, as R292 lists them (FULL12 is the default of D5). -/
def Obligations.UnlistedWordsAreThoseOfTheList : Prop :=
  ∀ w : Word, decode .full12 w = .unlisted w ↔
    (w.toNat / 4096 = 0x0 ∧ ¬(w.toNat = 0x00E0 ∨ w.toNat = 0x00EE ∨ (0x00C0 ≤ w.toNat ∧ w.toNat ≤ 0x00CF) ∨
        (0x00FB ≤ w.toNat ∧ w.toNat ≤ 0x00FF))) ∨
    (w.toNat / 4096 = 0x8 ∧ w.toNat % 16 ∈ [0x8, 0x9, 0xA, 0xB, 0xC, 0xD, 0xF]) ∨
    (w.toNat / 4096 = 0xE ∧ w.toNat % 256 ∉ [0x9E, 0xA1]) ∨
    (w.toNat / 4096 = 0xF ∧ w.toNat % 256 ∉ [0x07, 0x0A, 0x15, 0x18, 0x1E, 0x29, 0x33, 0x55, 0x65])

/-- FAMILY0_MATCH (R106, D5): under LOWBYTE a family-0 word is read by its low byte; FULL12 reads it the same where
w[11:8] = 0 and leaves it unlisted elsewhere; the other families do not depend on it. -/
def Obligations.Family0MatchWidth : Prop :=
  ∀ w : Word,
    (w.toNat / 4096 = 0 →
      decode .full12 w = (if w.toNat / 256 = 0 then decode .lowByte w else .unlisted w) ∧
      decode .lowByte w =
        (if w.toNat % 256 = 0xE0 then .cls else if w.toNat % 256 = 0xEE then .ret
         else if 0xC0 ≤ w.toNat % 256 ∧ w.toNat % 256 ≤ 0xCF then .scd (BitVec.ofNat 4 (w.toNat % 16))
         else if w.toNat % 256 = 0xFB then .scr else if w.toNat % 256 = 0xFC then .scl
         else if w.toNat % 256 = 0xFD then .exit else if w.toNat % 256 = 0xFE then .low
         else if w.toNat % 256 = 0xFF then .high else .unlisted w)) ∧
    (w.toNat / 4096 ≠ 0 → decode .lowByte w = decode .full12 w)

/-- Words written out from the patterns decode to their instructions: the source's own six (R103, R114) and at least one of
each of the sixteen families. A sanity statement. -/
def Obligations.WrittenOutWordsDecode : Prop :=
  decode .full12 0x6005 = .ldVxNn 0 5 ∧ decode .full12 0x6103 = .ldVxNn 1 3 ∧ decode .full12 0x8014 = .addVxVy 0 1 ∧
  decode .full12 0x00EE = .ret ∧ decode .full12 0xF00A = .ldVxK 0 ∧ decode .full12 0x8AB6 = .shr 10 11 ∧
  decode .full12 0x00C3 = .scd 3 ∧ decode .full12 0x1204 = .jp 0x204 ∧ decode .full12 0x220C = .call 0x20C ∧
  decode .full12 0x332A = .seVxNn 3 0x2A ∧ decode .full12 0x432B = .sneVxNn 3 0x2B ∧
  decode .full12 0x5010 = .seVxVy 0 1 0 ∧ decode .full12 0x7001 = .addVxNn 0 1 ∧ decode .full12 0x9010 = .sneVxVy 0 1 0 ∧
  decode .full12 0xA300 = .ldI 0x300 ∧ decode .full12 0xB300 = .jpV0 0x300 ∧ decode .full12 0xC30F = .rnd 3 0x0F ∧ decode .full12 0xD015 = .drw 0 1 5 ∧
  decode .full12 0xE19E = .skp 1 ∧ decode .full12 0xF155 = .ldMemVx 1 ∧ decode .full12 0x0000 = .unlisted 0x0000

/-! ### The step -/

/-- One step (R111, with D21 and D22): no step after a fault, a no-op while awaiting a key, else fetch, decode, execute and
the write of CYCLE_COST (R113); a fault or a refusal of the instruction, or of the fetch, is the step's. R111 only says that no
step exists after a fault; that a step asked of a faulted core answers noStepAfterFault is the model's choice (log entry 11,
DEDUCED), and the ACCURATE-mode cost is its free value (log entry 3). -/
def Obligations.StepIsFetchDecodeExecute : Prop :=
  ∀ s : State,
    (s.fault ≠ .none → step s = .fault (.noStepAfterFault s.fault)) ∧
    (s.fault = .none → s.awaiting = true → step s = .next s) ∧
    (Running s → ∀ w, fetchWord s = .ok w →
      (∀ t, exec (decode s.params.family0Match w) s = .next t →
        step s = .next { t with cycleCost := match s.timingMode with
                                             | .fixed    => 1
                                             | .accurate => accurateCost w s t }) ∧
      (∀ f, exec (decode s.params.family0Match w) s = .fault f → step s = .fault f) ∧
      (∀ r, exec (decode s.params.family0Match w) s = .refused r → step s = .refused r)) ∧
    (Running s → ∀ r, fetchWord s = .error r → step s = .refused r)

/-- Fetch reads two bytes, at pc and pc + 1, the first in bits 15:8 (R101), for every pc, odd or even. -/
def Obligations.FetchIsBigEndian : Prop :=
  ∀ s : State,
    (∀ hi lo, s.readByte s.pc.toNat = .ok hi → s.readByte (s.pc.toNat + 1) = .ok lo →
      ∃ w, fetchWord s = .ok w ∧ w.toNat = 256 * hi.toNat + lo.toNat) ∧
    (∀ r, s.readByte s.pc.toNat = .error r → fetchWord s = .error r) ∧
    (∀ hi r, s.readByte s.pc.toNat = .ok hi → s.readByte (s.pc.toNat + 1) = .error r → fetchWord s = .error r)

/-- Address formation (R72, with D11): under WRAP an address is taken modulo 4096; under REFUSE an address of 4096 or more
is refused. Reads and writes use the same mapping. -/
def Obligations.AddressFormation : Prop :=
  ∀ (s : State) (a : Nat) (b : Byte),
    (s.params.oobPolicy = .wrap →
      s.readByte a = .ok (s.mem.read (a % 4096)) ∧ s.writeByte a b = .ok { s with mem := s.mem.write (a % 4096) b }) ∧
    (s.params.oobPolicy = .refuse → a < 4096 →
      s.readByte a = .ok (s.mem.read a) ∧ s.writeByte a b = .ok { s with mem := s.mem.write a b }) ∧
    (s.params.oobPolicy = .refuse → 4096 ≤ a →
      s.readByte a = .error (.addressOutOfRange a) ∧ s.writeByte a b = .error (.addressOutOfRange a))

/-- A read returns the stored byte; a write stores the byte, is idempotent, and does nothing else (R75). -/
def Obligations.WriteStoresTheByteAndNothingElse : Prop :=
  ∀ (s t : State) (a : Nat) (b : Byte), s.mem.wf = true → s.writeByte a b = .ok t →
    t.readByte a = .ok b ∧ t.writeByte a b = .ok t ∧ ChangesOnly [.mem] s t ∧ MemOnly a 1 s t ∧ t.mem.wf = true

/-- Every executed instruction writes CYCLE_COST: 1 in FIXED mode, a positive cost within the cap in ACCURATE mode that
depends on nothing but the word, pc and I before and after, and VF after (R113, R325, R374; COST is the free value of
log entry 3). -/
def Obligations.ExecutedInstructionWritesCycleCost : Prop :=
  ∀ (s t : State), Running s → step s = .next t →
    (s.timingMode = .fixed → t.cycleCost = 1) ∧
    (s.timingMode = .accurate →
      1 ≤ t.cycleCost ∧ (1 ≤ s.params.maxCatchupCycles → t.cycleCost ≤ s.params.maxCatchupCycles) ∧
      ∃ w, fetchWord s = .ok w ∧
        t.cycleCost = 1 + Config.costOffset ⟨w, s.pc, t.pc, s.i, t.i, t.reg vF⟩ % s.params.maxCatchupCycles)

/-- What an instruction cannot see: the outcome of an instruction other than CXNN does not depend on the random draws, and
that of CXNN depends on them only through the byte drawn (R112); no instruction reads or writes the accumulators of the
clock and timer units, and none reads CYCLE_COST (R48, R113). The draw counter of the first two clauses is the model's own
field, and that a draw advances it by one is the model's choice (log entry 2, DESIGN CHOICE). -/
def Obligations.DrawsAndClockAreInvisible : Prop :=
  (∀ (i : Instr) (s : State) (n : Nat), (∀ x nn, i ≠ .rnd x nn) →
    exec i { s with randDraws := n } = mapNext (fun t => { t with randDraws := n }) (exec i s)) ∧
  (∀ (x : RegIx) (nn : Byte) (s : State) (n : Nat), Config.randByte n = Config.randByte s.randDraws →
    exec (.rnd x nn) { s with randDraws := n } = mapNext (fun t => { t with randDraws := n + 1 }) (exec (.rnd x nn) s)) ∧
  (∀ (i : Instr) (s : State) (a b : Rat) (c : Nat),
    exec i { s with clkAcc := a, tmrAcc := b, cycleCost := c }
      = mapNext (fun t => { t with clkAcc := a, tmrAcc := b, cycleCost := c }) (exec i s))

/-! ### Rules of the whole machine: which instruction writes what -/

/-- The instructions that write a general register, each only its own (R32, R31; the VY of a legacy shift by D9). -/
def Obligations.RegisterWriters : Prop :=
  ∀ (i : Instr) (s t : State), exec i s = .next t → RegsOnly (registerWrites s i) s t

/-- Which instructions write each state item beside the registers and memory: I (R35), SP and the stack entries in use (R36;
of an entry no longer in use it says nothing, D28), FB (R40), HIRES (R41), DT and ST (R38, R311), AWAIT and AWAIT_REG, which
no instruction clears (R43, R44); and no instruction writes the key latch, the configuration, the parameters, CLK_ACC, TMR_ACC
or FAULT (R42, R46, R48, R50). -/
def Obligations.WritersOfEachStateItem : Prop :=
  ∀ (i : Instr) (s t : State), exec i s = .next t →
    (t.i ≠ s.i → (∃ nnn, i = .ldI nnn) ∨ (∃ x, i = .addIVx x ∨ i = .ldF x) ∨
      (s.legacyMemop = true ∧ ∃ x, i = .ldMemVx x ∨ i = .ldVxMem x)) ∧
    ((∃ k : Fin 16, k.val < t.sp.val ∧ t.stack[k] ≠ s.stack[k]) → ∃ nnn, i = .call nnn) ∧
    (t.sp ≠ s.sp → i = .ret ∨ ∃ nnn, i = .call nnn) ∧
    (t.fb ≠ s.fb → i = .cls ∨ (∃ x y n, i = .drw x y n) ∨ (∃ n, i = .scd n) ∨ i = .scr ∨ i = .scl) ∧
    (t.hires ≠ s.hires → i = .low ∨ i = .high) ∧
    (t.dt ≠ s.dt → ∃ x, i = .ldDtVx x) ∧
    (t.st ≠ s.st → ∃ x, i = .ldStVx x) ∧
    (s.awaiting = true → t.awaiting = true) ∧
    ((t.awaiting ≠ s.awaiting ∨ t.awaitReg ≠ s.awaitReg) → ∃ x, i = .ldVxK x ∧ t.awaiting = true ∧ t.awaitReg = x) ∧
    (∀ p ∈ [Part.key, .config, .params, .clkAcc, .tmrAcc, .cycleCost, .fault], SamePart p s t)

/-- A byte of memory is changed only by FX33, at one of its three addresses, or by FX55, at one of its X + 1 (R71). -/
def Obligations.MemoryWriters : Prop :=
  ∀ (i : Instr) (s t : State) (j : Nat), s.mem.wf = true → exec i s = .next t → t.mem.read j ≠ s.mem.read j →
    (∃ x k, i = .ldB x ∧ k < 3 ∧ memIndex s.params.oobPolicy (s.i.toNat + k) = .ok j) ∨
    (∃ x k, i = .ldMemVx x ∧ k ≤ x.val ∧ memIndex s.params.oobPolicy (s.i.toNat + k) = .ok j)

/-- EXIT is set by 00FD and never cleared by any instruction, and the host observes it (R45). -/
def Obligations.ExitFlagIsSetOnlyByExit : Prop :=
  ∀ (i : Instr) (s t : State), exec i s = .next t →
    (t.exit = true ↔ s.exit = true ∨ i = .exit) ∧ (readout t).exit = t.exit

/-- The pc discipline (R110, with D42): every instruction but 1NNN, 2NNN, BNNN and 00EE ends with pc + 2, or, for a
conditional skip, pc + 2 or pc + 4, modulo 2^16. -/
def Obligations.ProgramCounterDiscipline : Prop :=
  ∀ (i : Instr) (s t : State), exec i s = .next t →
    i = .ret ∨ (∃ nnn, i = .jp nnn ∨ i = .call nnn ∨ i = .jpV0 nnn) ∨
    t.pc.toNat = (s.pc.toNat + 2) % 65536 ∨
    (t.pc.toNat = (s.pc.toNat + 4) % 65536 ∧
      ((∃ x nn, i = .seVxNn x nn ∨ i = .sneVxNn x nn) ∨ (∃ x y n, i = .seVxVy x y n ∨ i = .sneVxVy x y n) ∨
       (∃ x, i = .skp x ∨ i = .sknp x)))

/-- An instruction faults exactly when it is 00EE with SP = 0 or 2NNN with SP = 16; nothing else faults (R303, R304,
R305). -/
def Obligations.OnlyStackFaults : Prop :=
  ∀ (i : Instr) (s : State) (f : Fault), exec i s = .fault f ↔
    (i = .ret ∧ s.sp.val = 0 ∧ f = .stackUnderflow s.pc) ∨
    ((∃ nnn, i = .call nnn) ∧ s.sp.val = 16 ∧ f = .stackOverflow s.pc)

/-- A running core is refused a step only by a REFUSE policy (R11, R72, R242, R270); under the other choices every step of
a running core goes on, but for the two stack faults (R304). -/
def Obligations.StepsGoOnWithoutRefusePolicies : Prop :=
  ∀ s : State, Running s → NoRefusePolicy s.params →
    (∀ r, step s ≠ .refused r) ∧
    (StepSafe s ↔ ∀ w, fetchWord s = .ok w →
      ¬(decode s.params.family0Match w = .ret ∧ s.sp.val = 0) ∧
      ¬((∃ nnn, decode s.params.family0Match w = .call nnn) ∧ s.sp.val = 16))

/-! ### Faults -/

/-- A fault is precise and final (R300 to R303, R306, R307, by D21): whatever step of a running core faults, the cause code
is 1 for StackUnderflow and 2 for StackOverflow, the recorded address is the pc, the word there stays, the state it leaves
differs in FAULT alone, and no later step of it exists, whatever keys are pressed and timers run in between. Two things here are
the model's choice: that the recorded state is the one issueStep leaves (log entry 10, DEDUCED), and that a step asked of a
faulted core answers noStepAfterFault (log entry 11, DEDUCED). -/
def Obligations.FaultIsPreciseAndFinal : Prop :=
  ∀ (s : State) (f : Fault), Running s → step s = .fault f →
    ∃ t, issueStep s = .ok ⟨t, some f⟩ ∧
      ((f = .stackUnderflow s.pc ∧ t.fault.number = 1) ∨ (f = .stackOverflow s.pc ∧ t.fault.number = 2)) ∧
      ChangesOnly [.fault] s t ∧ fetchWord t = fetchWord s ∧
      ∀ (events : List KeyEvent) (dt : Elapsed),
        step (timerUpdate dt (keyEvents events t)) = .fault (.noStepAfterFault t.fault)

/-! ### Control transfer -/

/-- 1NNN: pc becomes NNN, zero-extended (R141); BNNN: pc becomes NNN + V0, kept in full (R147, with D12); nothing else
changes. -/
def Obligations.JumpsSetProgramCounter : Prop :=
  ∀ (nnn : Imm12) (s : State),
    (∃ t, exec (.jp nnn) s = .next t ∧ t.pc.toNat = nnn.toNat ∧ ChangesOnly [.pc] s t) ∧
    (∃ t, exec (.jpV0 nnn) s = .next t ∧ t.pc.toNat = nnn.toNat + (s.reg 0).toNat ∧ ChangesOnly [.pc] s t)

/-- 2NNN, the words 0x2000 + NNN: with SP < 16 the address of the call itself is pushed and pc becomes NNN; with SP = 16 it
raises StackOverflow, with no state change (R142). -/
def Obligations.CallPushesItsOwnAddress : Prop :=
  ∀ (nnn : Imm12) (s : State),
    (∀ m w, w.toNat = 0x2000 + nnn.toNat → decode m w = .call nnn) ∧
    (s.sp.val < 16 → ∃ t, exec (.call nnn) s = .next t ∧
      t.stack[s.sp.val]? = some s.pc ∧ (∀ k : Fin 16, k.val ≠ s.sp.val → t.stack[k] = s.stack[k]) ∧
      t.sp.val = s.sp.val + 1 ∧ t.pc.toNat = nnn.toNat ∧ ChangesOnly [.pc, .sp, .stack] s t) ∧
    (s.sp.val = 16 → exec (.call nnn) s = .fault (.stackOverflow s.pc))

/-- 00EE: with SP > 0 pc becomes the popped value + 2, SP goes down by one and the entries still in use keep their values;
with SP = 0 it raises StackUnderflow (R140). What the popped entry holds afterwards is D28's choice, and the statement does
not speak of it. -/
def Obligations.ReturnPopsPastTheCall : Prop :=
  ∀ (s : State),
    (∀ a, 0 < s.sp.val → s.stack[s.sp.val - 1]? = some a → ∃ t, exec .ret s = .next t ∧
      t.pc.toNat = (a.toNat + 2) % 65536 ∧ t.sp.val + 1 = s.sp.val ∧
      (∀ k : Fin 16, k.val < t.sp.val → t.stack[k] = s.stack[k]) ∧ ChangesOnly [.pc, .sp, .stack] s t) ∧
    (s.sp.val = 0 → exec .ret s = .fault (.stackUnderflow s.pc))

/-- A return right after a call comes back past the call with the stack depth restored (R37, R140, R142). -/
def Obligations.CallThenReturnComesBack : Prop :=
  ∀ (nnn : Imm12) (s : State), s.sp.val < 16 → ∃ t u, exec (.call nnn) s = .next t ∧ exec .ret t = .next u ∧
    u.pc = s.pc + 2 ∧ u.sp = s.sp ∧ (∀ k : Fin 16, k.val < s.sp.val → u.stack[k] = s.stack[k]) ∧
    ChangesOnly [.pc, .stack] s u

/-- 3XNN, 4XNN, 5XYN, 9XYN: pc + 4 when the comparison holds, else pc + 2, nothing else changes, and the N of 5XYN and
9XYN does not matter (R143 to R146, with D42). -/
def Obligations.CompareSkips : Prop :=
  ∀ (x y : RegIx) (nn : Byte) (n : Nibble) (s : State),
    (∃ t, exec (.seVxNn x nn) s = .next t ∧ ChangesOnly [.pc] s t ∧
      t.pc.toNat = (s.pc.toNat + if s.reg x = nn then 4 else 2) % 65536) ∧
    (∃ t, exec (.sneVxNn x nn) s = .next t ∧ ChangesOnly [.pc] s t ∧
      t.pc.toNat = (s.pc.toNat + if s.reg x = nn then 2 else 4) % 65536) ∧
    (∃ t, exec (.seVxVy x y n) s = .next t ∧ ChangesOnly [.pc] s t ∧
      t.pc.toNat = (s.pc.toNat + if s.reg x = s.reg y then 4 else 2) % 65536) ∧
    (∃ t, exec (.sneVxVy x y n) s = .next t ∧ ChangesOnly [.pc] s t ∧
      t.pc.toNat = (s.pc.toNat + if s.reg x = s.reg y then 2 else 4) % 65536)

/-- EX9E and EXA1: the key is VX's low four bits; pc + 4 when it is down (EX9E) or up (EXA1), else pc + 2; above 0xF the
step is refused under KEY_INDEX_POLICY = REFUSE (R270, R271, with D14 and D42). -/
def Obligations.KeySkips : Prop :=
  ∀ (x : RegIx) (s : State) (k : RegIx), k.val = (s.reg x).toNat % 16 →
    ((s.params.keyIndexPolicy = .lowNibble ∨ (s.reg x).toNat ≤ 0xF) →
      (∃ t, exec (.skp x) s = .next t ∧ ChangesOnly [.pc] s t ∧
        t.pc.toNat = (s.pc.toNat + if s.keyDown k then 4 else 2) % 65536) ∧
      (∃ t, exec (.sknp x) s = .next t ∧ ChangesOnly [.pc] s t ∧
        t.pc.toNat = (s.pc.toNat + if s.keyDown k then 2 else 4) % 65536)) ∧
    (s.params.keyIndexPolicy = .refuse → 0xF < (s.reg x).toNat →
      exec (.skp x) s = .refused (.keyIndexRange (s.reg x)) ∧ exec (.sknp x) s = .refused (.keyIndexRange (s.reg x)))

/-! ### Registers and arithmetic -/

/-- 6XNN, 7XNN, 8XY0, each from its own words: VX receives NN, VX + NN modulo 2^8, or VY, pc + 2, and nothing else changes,
VF among it unless X = 0xF (R170, R171, R172). -/
def Obligations.LoadsCopiesAndAddImmediate : Prop :=
  ∀ (x y : RegIx) (nn : Byte) (s : State),
    (∀ m w, (w.toNat = 0x6000 + 256 * x.val + nn.toNat → decode m w = .ldVxNn x nn) ∧
      (w.toNat = 0x7000 + 256 * x.val + nn.toNat → decode m w = .addVxNn x nn) ∧
      (w.toNat = 0x8000 + 256 * x.val + 16 * y.val → decode m w = .ldVxVy x y)) ∧
    (∃ t, exec (.ldVxNn x nn) s = .next t ∧ t.reg x = nn ∧ RegsOnly [x] s t ∧ t.pc = s.pc + 2 ∧
      ChangesOnly [.regs, .pc] s t) ∧
    (∃ t, exec (.addVxNn x nn) s = .next t ∧ (t.reg x).toNat = ((s.reg x).toNat + nn.toNat) % 256 ∧
      RegsOnly [x] s t ∧ t.pc = s.pc + 2 ∧ ChangesOnly [.regs, .pc] s t) ∧
    (∃ t, exec (.ldVxVy x y) s = .next t ∧ t.reg x = s.reg y ∧ RegsOnly [x] s t ∧ t.pc = s.pc + 2 ∧
      ChangesOnly [.regs, .pc] s t)

/-- 8XY1, 8XY2, 8XY3: bit by bit OR, AND, XOR into VX; VF is no flag here (R173, R174, R175, with D8). -/
def Obligations.BitwiseLogic : Prop :=
  ∀ (x y : RegIx) (s : State),
    (∃ t, exec (.or x y) s = .next t ∧ (∀ k, k < 8 → (t.reg x).getLsbD k = ((s.reg x).getLsbD k || (s.reg y).getLsbD k)) ∧
      RegsOnly [x] s t ∧ t.pc = s.pc + 2 ∧ ChangesOnly [.regs, .pc] s t) ∧
    (∃ t, exec (.and x y) s = .next t ∧ (∀ k, k < 8 → (t.reg x).getLsbD k = ((s.reg x).getLsbD k && (s.reg y).getLsbD k)) ∧
      RegsOnly [x] s t ∧ t.pc = s.pc + 2 ∧ ChangesOnly [.regs, .pc] s t) ∧
    (∃ t, exec (.xor x y) s = .next t ∧
      (∀ k, k < 8 → (t.reg x).getLsbD k = ((s.reg x).getLsbD k != (s.reg y).getLsbD k)) ∧
      RegsOnly [x] s t ∧ t.pc = s.pc + 2 ∧ ChangesOnly [.regs, .pc] s t)

/-- 8XY4: VX receives the sum modulo 2^8 (unless X = 0xF), VF the carry, 1 exactly when the sum exceeds 255 (R176; the
flag last by D6). -/
def Obligations.AddWithCarry : Prop :=
  ∀ (x y : RegIx) (s : State), ∃ t, exec (.addVxVy x y) s = .next t ∧
    (x ≠ vF → (t.reg x).toNat = ((s.reg x).toNat + (s.reg y).toNat) % 256) ∧
    (t.reg vF).toNat = (if 255 < (s.reg x).toNat + (s.reg y).toNat then 1 else 0) ∧
    RegsOnly [x, vF] s t ∧ t.pc = s.pc + 2 ∧ ChangesOnly [.regs, .pc] s t

/-- 8XY5 and 8XY7: VX receives the difference in the one order or the other, modulo 2^8 (unless X = 0xF), VF the
not-borrow (R177, R179; the flag last by D6). -/
def Obligations.SubtractWithBorrow : Prop :=
  ∀ (x y : RegIx) (s : State),
    (∃ t, exec (.sub x y) s = .next t ∧
      (x ≠ vF → (t.reg x).toNat = (256 + (s.reg x).toNat - (s.reg y).toNat) % 256) ∧
      (t.reg vF).toNat = (if (s.reg x).toNat < (s.reg y).toNat then 0 else 1) ∧
      RegsOnly [x, vF] s t ∧ t.pc = s.pc + 2 ∧ ChangesOnly [.regs, .pc] s t) ∧
    (∃ t, exec (.subn x y) s = .next t ∧
      (x ≠ vF → (t.reg x).toNat = (256 + (s.reg y).toNat - (s.reg x).toNat) % 256) ∧
      (t.reg vF).toNat = (if (s.reg y).toNat < (s.reg x).toNat then 0 else 1) ∧
      RegsOnly [x, vF] s t ∧ t.pc = s.pc + 2 ∧ ChangesOnly [.regs, .pc] s t)

/-- 8XY6 and 8XYE: the source is VY with LEGACY_SHIFT and VX without; VX receives half of it, or twice it modulo 2^8
(unless X = 0xF), VF the bit shifted out (R178, R180; the flag last by D6). VY is written too, with VX's new value, only
under LEGACY_SHIFT with LEGACY_SHIFT_WRITES_VY (D9). -/
def Obligations.ShiftsByOne : Prop :=
  ∀ (x y : RegIx) (s : State) (src : Byte), src = (if s.legacyShift then s.reg y else s.reg x) →
    (∃ t, exec (.shr x y) s = .next t ∧
      (x ≠ vF → (t.reg x).toNat = src.toNat / 2) ∧ (t.reg vF).toNat = src.toNat % 2 ∧
      (s.legacyShift = true → s.params.legacyShiftWritesVy = true → y ≠ vF → (t.reg y).toNat = src.toNat / 2) ∧
      ((s.legacyShift && s.params.legacyShiftWritesVy) = false → RegsOnly [x, vF] s t) ∧ RegsOnly [x, y, vF] s t ∧
      t.pc = s.pc + 2 ∧ ChangesOnly [.regs, .pc] s t) ∧
    (∃ t, exec (.shl x y) s = .next t ∧
      (x ≠ vF → (t.reg x).toNat = (src.toNat * 2) % 256) ∧ (t.reg vF).toNat = src.toNat / 128 ∧
      (s.legacyShift = true → s.params.legacyShiftWritesVy = true → y ≠ vF → (t.reg y).toNat = (src.toNat * 2) % 256) ∧
      ((s.legacyShift && s.params.legacyShiftWritesVy) = false → RegsOnly [x, vF] s t) ∧ RegsOnly [x, y, vF] s t ∧
      t.pc = s.pc + 2 ∧ ChangesOnly [.regs, .pc] s t)

/-- CXNN: VX receives the drawn byte AND NN, bit by bit; the byte is the free value `Config.randByte` of the draw's
number, and the next draw has the next number (R181, with D31; log entry 2). -/
def Obligations.RandomAndMask : Prop :=
  ∀ (x : RegIx) (nn : Byte) (s : State), ∃ t, exec (.rnd x nn) s = .next t ∧
    (∀ k, k < 8 → (t.reg x).getLsbD k = ((Config.randByte s.randDraws).getLsbD k && nn.getLsbD k)) ∧
    t.randDraws = s.randDraws + 1 ∧ RegsOnly [x] s t ∧ t.pc = s.pc + 2 ∧ ChangesOnly [.regs, .pc, .draws] s t

/-! ### Display -/

/-- 00E0, the word 0x00E0: every bit of the framebuffer becomes 0, in both modes, and HIRES stays (R201). -/
def Obligations.ClearScreen : Prop :=
  ∀ s : State, (∀ m, decode m 0x00E0 = .cls) ∧ ∃ t, exec .cls s = .next t ∧ (∀ r c, r < 64 → c < 128 → t.fb.get r c = false) ∧ t.pc = s.pc + 2 ∧
    ChangesOnly [.fb, .pc] s t

/-- 00CN, 00FB, 00FC move physical rows or columns in both modes and fill with 0 (R207, R208, R209, with D19); 00FE and 00FF
write HIRES alone and leave the framebuffer (R210, R211, with D20). -/
def Obligations.ScrollsAndResolution : Prop :=
  ∀ (s : State) (n : Nibble),
    (∃ t, exec (.scd n) s = .next t ∧
      (∀ r c, r < 64 → c < 128 → t.fb.get r c = if n.toNat ≤ r then s.fb.get (r - n.toNat) c else false) ∧
      t.pc = s.pc + 2 ∧ ChangesOnly [.fb, .pc] s t) ∧
    (∃ t, exec .scr s = .next t ∧
      (∀ r c, r < 64 → c < 128 → t.fb.get r c = if 4 ≤ c then s.fb.get r (c - 4) else false) ∧
      t.pc = s.pc + 2 ∧ ChangesOnly [.fb, .pc] s t) ∧
    (∃ t, exec .scl s = .next t ∧
      (∀ r c, r < 64 → c < 128 → t.fb.get r c = if c ≤ 123 then s.fb.get r (c + 4) else false) ∧
      t.pc = s.pc + 2 ∧ ChangesOnly [.fb, .pc] s t) ∧
    (∃ t, exec .low s = .next t ∧ t.hires = false ∧ t.pc = s.pc + 2 ∧ ChangesOnly [.hires, .pc] s t) ∧
    (∃ t, exec .high s = .next t ∧ t.hires = true ∧ t.pc = s.pc + 2 ∧ ChangesOnly [.hires, .pc] s t)

/-- DXYN with HIRES = 0: every physical bit a set sprite bit covers is inverted and every other bit stays; VF is 1 exactly
when a covered bit was 1, else 0 (R202, R203, R205, with D16 and D18). Where a sprite byte is out of reach under
OOB_POLICY = REFUSE the step is refused (R72). -/
def Obligations.DrawLowResolution : Prop :=
  ∀ (x y : RegIx) (n : Nibble) (s : State), s.hires = false →
    (Reachable s s.i.toNat n.toNat → ∃ t, exec (.drw x y n) s = .next t ∧
      (∀ r c, r < 64 → c < 128 → t.fb.get r c = (s.fb.get r c != coversLow s x y n r c)) ∧
      ((t.reg vF).toNat = 0 ∨ (t.reg vF).toNat = 1) ∧
      ((t.reg vF).toNat = 1 ↔ ∃ r c, r < 64 ∧ c < 128 ∧ s.fb.get r c = true ∧ coversLow s x y n r c = true) ∧
      RegsOnly [vF] s t ∧ t.pc = s.pc + 2 ∧ ChangesOnly [.regs, .fb, .pc] s t) ∧
    (¬Reachable s s.i.toNat n.toNat → ∃ a, 4096 ≤ a ∧ exec (.drw x y n) s = .refused (.addressOutOfRange a))

/-- DXYN with HIRES = 1: covered bits are inverted, columns wrapping and rows past the bottom edge drawing nothing; VF is
the number of rows that collided or were clipped (R202, R204, R205, with D17). Where a byte of a row that is drawn is out
of reach under OOB_POLICY = REFUSE the step is refused (R72). That the bytes of clipped rows are not read, so that the draw
goes on where only those are out of reach, is R204's pseudocode taken before R71's list of reads: the model's choice (log
entry 15, DEDUCED, unsafe under REFUSE). -/
def Obligations.DrawHighResolution : Prop :=
  ∀ (x y : RegIx) (n : Nibble) (s : State), s.hires = true →
    (Reachable s s.i.toNat (spriteLength s y n) → ∃ t, exec (.drw x y n) s = .next t ∧
      (∀ r c, r < 64 → c < 128 → t.fb.get r c = (s.fb.get r c != coversHigh s x y n r c)) ∧
      (t.reg vF).toNat = (List.range (highHeight n)).countP (countsHigh s x y n) ∧
      RegsOnly [vF] s t ∧ t.pc = s.pc + 2 ∧ ChangesOnly [.regs, .fb, .pc] s t) ∧
    (¬Reachable s s.i.toNat (spriteLength s y n) →
      ∃ a, 4096 ≤ a ∧ exec (.drw x y n) s = .refused (.addressOutOfRange a))

/-- Drawing the same sprite at the same place twice in succession restores the framebuffer, in both modes (R206). The place
is the same when neither coordinate register is VF, which the first draw writes. Where the first draw met no set bit, so that
every set sprite bit meets a bit the first draw set, the second draw's VF is 1 exactly for a sprite with a set bit (low
resolution), or the number of rows with a set bit or clipped (high resolution). R206 does not say that the first draw must
have met no set bit; where it met one, R203 to R205 decide (log entry 9). -/
def Obligations.SecondDrawRestores : Prop :=
  ∀ (x y : RegIx) (n : Nibble) (s t : State), x ≠ vF → y ≠ vF → exec (.drw x y n) s = .next t →
    ∃ u, exec (.drw x y n) t = .next u ∧ u.fb = s.fb ∧
      (s.hires = false → (∀ r c, r < 64 → c < 128 → s.fb.get r c = true → coversLow s x y n r c = false) →
        ((u.reg vF).toNat = 1 ↔ ∃ k j, k < n.toNat ∧ j < 8 ∧ spriteBit s k j = true)) ∧
      (s.hires = true → (∀ r c, r < 64 → c < 128 → s.fb.get r c = true → coversHigh s x y n r c = false) →
        (u.reg vF).toNat = (List.range (highHeight n)).countP fun k =>
          decide (64 ≤ (s.reg y).toNat % 64 + k) ||
          (List.range (8 * highRowBytes n)).any fun j => spriteBit s (highRowBytes n * k + j / 8) (j % 8))

/-! ### Address register and memory -/

/-- ANNN: I becomes NNN, zero-extended (R240, with D43). FX1E: I becomes I + VX modulo 2^16 and no register changes, VF
among them (R241, with D44). FX29: I becomes 0x050 + 5·VX for a digit 0 to 0xF, and above 0xF what FONT_INDEX_POLICY says
(R242, with D15). -/
def Obligations.IndexRegisterLoads : Prop :=
  ∀ (nnn : Imm12) (x : RegIx) (s : State),
    (∃ t, exec (.ldI nnn) s = .next t ∧ t.i.toNat = nnn.toNat ∧ t.pc = s.pc + 2 ∧ ChangesOnly [.i, .pc] s t) ∧
    (∃ t, exec (.addIVx x) s = .next t ∧ t.i.toNat = (s.i.toNat + (s.reg x).toNat) % 65536 ∧ t.pc = s.pc + 2 ∧
      ChangesOnly [.i, .pc] s t) ∧
    (((s.reg x).toNat ≤ 0xF ∨ s.params.fontIndexPolicy = .full) → ∃ t, exec (.ldF x) s = .next t ∧
      t.i.toNat = 0x050 + 5 * (s.reg x).toNat ∧ t.pc = s.pc + 2 ∧ ChangesOnly [.i, .pc] s t) ∧
    (0xF < (s.reg x).toNat → s.params.fontIndexPolicy = .lowNibble → ∃ t, exec (.ldF x) s = .next t ∧
      t.i.toNat = 0x050 + 5 * ((s.reg x).toNat % 16) ∧ t.pc = s.pc + 2 ∧ ChangesOnly [.i, .pc] s t) ∧
    (0xF < (s.reg x).toNat → s.params.fontIndexPolicy = .refuse →
      exec (.ldF x) s = .refused (.fontDigitRange (s.reg x)))

/-- FX33: the hundreds, tens and ones of VX are stored at I, I + 1, I + 2, every other byte of memory stays, and I is not
changed (R243, with D11). Where an address is out of reach under OOB_POLICY = REFUSE the step is refused. -/
def Obligations.StoreDecimalDigits : Prop :=
  ∀ (x : RegIx) (s : State), s.mem.wf = true →
    (Reachable s s.i.toNat 3 → ∃ t, exec (.ldB x) s = .next t ∧
      (∀ j, memIndex s.params.oobPolicy s.i.toNat = .ok j → (t.mem.read j).toNat = (s.reg x).toNat / 100) ∧
      (∀ j, memIndex s.params.oobPolicy (s.i.toNat + 1) = .ok j → (t.mem.read j).toNat = (s.reg x).toNat / 10 % 10) ∧
      (∀ j, memIndex s.params.oobPolicy (s.i.toNat + 2) = .ok j → (t.mem.read j).toNat = (s.reg x).toNat % 10) ∧
      MemOnly s.i.toNat 3 s t ∧ t.pc = s.pc + 2 ∧ ChangesOnly [.mem, .pc] s t) ∧
    (¬Reachable s s.i.toNat 3 → ∃ a, 4096 ≤ a ∧ exec (.ldB x) s = .refused (.addressOutOfRange a))

/-- FX55: V0 to VX are stored at I to I + X and every other byte of memory stays; I moves on by the legacy increment with
LEGACY_MEMOP and stays without (R244, with D10). Where an address is out of reach under OOB_POLICY = REFUSE the step is
refused. -/
def Obligations.StoreRegisterBlock : Prop :=
  ∀ (x : RegIx) (s : State), s.mem.wf = true →
    (Reachable s s.i.toNat (x.val + 1) → ∃ t, exec (.ldMemVx x) s = .next t ∧
      (∀ (k : RegIx) (j : Nat), k ≤ x → memIndex s.params.oobPolicy (s.i.toNat + k.val) = .ok j →
        t.mem.read j = s.reg k) ∧
      MemOnly s.i.toNat (x.val + 1) s t ∧
      (s.legacyMemop = false → t.i = s.i) ∧
      (s.legacyMemop = true → s.params.legacyMemopIncrement = .xPlusOne →
        t.i.toNat = (s.i.toNat + x.val + 1) % 65536) ∧
      (s.legacyMemop = true → s.params.legacyMemopIncrement = .x → t.i.toNat = (s.i.toNat + x.val) % 65536) ∧
      t.pc = s.pc + 2 ∧ ChangesOnly [.mem, .i, .pc] s t) ∧
    (¬Reachable s s.i.toNat (x.val + 1) → ∃ a, 4096 ≤ a ∧ exec (.ldMemVx x) s = .refused (.addressOutOfRange a))

/-- FX65: V0 to VX are loaded from I to I + X, every address from the I before the step; I as in FX55 (R245, with D10).
Where an address is out of reach under OOB_POLICY = REFUSE the step is refused. -/
def Obligations.LoadRegisterBlock : Prop :=
  ∀ (x : RegIx) (s : State),
    (Reachable s s.i.toNat (x.val + 1) → ∃ t, exec (.ldVxMem x) s = .next t ∧
      (∀ (k : RegIx) (j : Nat), k ≤ x → memIndex s.params.oobPolicy (s.i.toNat + k.val) = .ok j →
        t.reg k = s.mem.read j) ∧
      (∀ k : RegIx, x < k → t.reg k = s.reg k) ∧
      (s.legacyMemop = false → t.i = s.i) ∧
      (s.legacyMemop = true → s.params.legacyMemopIncrement = .xPlusOne →
        t.i.toNat = (s.i.toNat + x.val + 1) % 65536) ∧
      (s.legacyMemop = true → s.params.legacyMemopIncrement = .x → t.i.toNat = (s.i.toNat + x.val) % 65536) ∧
      t.pc = s.pc + 2 ∧ ChangesOnly [.regs, .i, .pc] s t) ∧
    (¬Reachable s s.i.toNat (x.val + 1) → ∃ a, 4096 ≤ a ∧ exec (.ldVxMem x) s = .refused (.addressOutOfRange a))

/-! ### Keys, timers and system -/

/-- FX07, FX15 and FX18, each from its own words: VX receives DT, or DT or ST receives VX, pc + 2, and nothing else changes,
TMR_ACC and VF among it; the tone is on exactly while ST ≠ 0, and no other instruction changes DT (R272, R274, R275). -/
def Obligations.TimerRegisterMoves : Prop :=
  ∀ (x : RegIx) (s : State),
    (∀ m w, (w.toNat = 0xF007 + 256 * x.val → decode m w = .ldVxDt x) ∧
      (w.toNat = 0xF015 + 256 * x.val → decode m w = .ldDtVx x) ∧
      (w.toNat = 0xF018 + 256 * x.val → decode m w = .ldStVx x)) ∧
    (∃ t, exec (.ldVxDt x) s = .next t ∧ t.reg x = s.dt ∧ RegsOnly [x] s t ∧ t.pc = s.pc + 2 ∧
      ChangesOnly [.regs, .pc] s t) ∧
    (∃ t, exec (.ldDtVx x) s = .next t ∧ t.dt = s.reg x ∧ t.pc = s.pc + 2 ∧ ChangesOnly [.dt, .pc] s t) ∧
    (∃ t, exec (.ldStVx x) s = .next t ∧ t.st = s.reg x ∧ ((readout t).toneOn = true ↔ s.reg x ≠ 0) ∧ t.pc = s.pc + 2 ∧
      ChangesOnly [.st, .pc] s t) ∧
    (∀ i t, exec i s = .next t → (∀ z, i ≠ .ldDtVx z) → t.dt = s.dt)

/-- FX0A: AWAIT is set, AWAIT_REG records X, pc moves past the instruction, and VX is not written; every later step is a
no-op while the wait lasts (R273, R334). -/
def Obligations.AwaitKeySuspends : Prop :=
  ∀ (x : RegIx) (s : State), ∃ t, exec (.ldVxK x) s = .next t ∧ t.awaiting = true ∧ t.awaitReg = x ∧
    t.pc = s.pc + 2 ∧ ChangesOnly [.await, .pc] s t ∧ (s.fault = .none → step t = .next t)

/-- The whole of a wait (R273, R330 to R332): however many releases and steps come after FX0A nothing but the key latch
changes; the first press, of whatever key and however its KEY bit stood (D33), gives its index to VX and clears AWAIT, and
the step after it fetches at the pc past the FX0A. -/
def Obligations.OnlyAPressEndsTheWait : Prop :=
  ∀ (s : State), s.awaiting = true → s.fault = .none →
    (∀ k, ∃ t, keyRelease k s = t ∧ t.awaiting = true ∧ t.keyDown k = false ∧ ChangesOnly [.key] s t ∧
      step t = .next t) ∧
    (∀ k, ∃ t, keyPress k s = t ∧ t.awaiting = false ∧ t.keyDown k = true ∧ (t.reg s.awaitReg).toNat = k.val ∧
      RegsOnly [s.awaitReg] s t ∧ ChangesOnly [.key, .await, .regs] s t ∧ t.awaitReg = s.awaitReg ∧
      fetchWord t = fetchWord s ∧
      ∀ w, fetchWord t = .ok w → step t = finishStep w t (exec (decode s.params.family0Match w) t))

/-- A key press (R330): KEY[k] is set and no other KEY bit changes; a running core changes nothing else. With several events in
one frame they apply in delivery order, so a press followed by a release leaves the key up though it ended the wait (R335,
D33). -/
def Obligations.KeyPressSetsTheLatch : Prop :=
  ∀ (k : RegIx) (s : State),
    (keyPress k s).keyDown k = true ∧ (∀ j, j ≠ k → (keyPress k s).keyDown j = s.keyDown j) ∧
    (s.awaiting = false → ChangesOnly [.key] s (keyPress k s)) ∧
    (keyEvents [.press k, .release k] s).keyDown k = false ∧
    (s.awaiting = true → (keyEvents [.press k, .release k] s).awaiting = false ∧
      ((keyEvents [.press k, .release k] s).reg s.awaitReg).toNat = k.val)

/-- A key release clears that key's bit, whatever it was, and changes nothing else: not the other keys, not the wait
(R331). -/
def Obligations.KeyReleaseClearsTheLatch : Prop :=
  ∀ (k : RegIx) (s : State),
    (keyRelease k s).keyDown k = false ∧ (∀ j, j ≠ k → (keyRelease k s).keyDown j = s.keyDown j) ∧
    ChangesOnly [.key] s (keyRelease k s)

/-- 00FD sets EXIT and goes on: it does not stop the core (R290, with D27). -/
def Obligations.ExitSetsTheFlagAndGoesOn : Prop :=
  ∀ s : State, (∀ m, decode m 0x00FD = .exit) ∧
    (∃ t, exec .exit s = .next t ∧ t.exit = true ∧ t.pc = s.pc + 2 ∧ ChangesOnly [.exit, .pc] s t) ∧
    (Running s → fetchWord s = .ok 0x00FD → ∃ t, step s = .next t ∧ t.exit = true ∧ Running t)

/-- A word that no other row of the table selects only advances pc and writes CYCLE_COST: it is never a fault, a trap or a
halt (R291). -/
def Obligations.UnlistedWordOnlyAdvances : Prop :=
  ∀ (s : State) (w : Word),
    (∃ t, exec (.unlisted w) s = .next t ∧ t.pc.toNat = (s.pc.toNat + 2) % 65536 ∧ ChangesOnly [.pc] s t) ∧
    (s.params.family0Match = .full12 → (∀ row ∈ opcodeTable, rowSelects row w = false) → Running s →
      fetchWord s = .ok w → ∃ t, step s = .next t ∧ t.pc.toNat = (s.pc.toNat + 2) % 65536 ∧
        (s.timingMode = .fixed → t.cycleCost = 1) ∧ (s.timingMode = .accurate → t.cycleCost = accurateCost w s t) ∧
        ChangesOnly [.pc, .cycleCost] s t)

/-! ### Timer unit, clock unit, load, reset -/

/-- TimerUpdate (R310, R311, with D26): the time due in whole 1/60 s is taken off both timers, neither below zero, each on
its own, and off the accumulator, which ends below 1/60; nothing else changes, whatever AWAIT, EXIT and FAULT are. -/
def Obligations.TimerUpdateCountsDown : Prop :=
  ∀ (s : State) (dt : Elapsed) (n : Nat), 0 ≤ s.tmrAcc → (n : Int) = ((s.tmrAcc + dt.val) * 60).floor →
    ∃ t, timerUpdate dt s = t ∧ t.dt.toNat = s.dt.toNat - n ∧ t.st.toNat = s.st.toNat - n ∧
      t.tmrAcc = s.tmrAcc + dt.val - n / 60 ∧ 0 ≤ t.tmrAcc ∧ t.tmrAcc < 1 / 60 ∧ ChangesOnly [.dt, .st, .tmrAcc] s t

/-- The timer law (R313): a delay timer at N reaches 0 exactly when the elapsed time comes to N/60 s less what the
accumulator already held, and stays 0. -/
def Obligations.TimerReachesZeroOnTime : Prop :=
  ∀ (s : State) (dt : Elapsed), 0 ≤ s.tmrAcc → s.tmrAcc < 1 / 60 → s.dt ≠ 0 →
    ((timerUpdate dt s).dt = 0 ↔ (s.dt.toNat : Rat) / 60 - s.tmrAcc ≤ dt.val)

/-- The steps a clock update issues are steps of the core and nothing else: without a fault the state it leaves is the one
that many steps lead to, but for CLK_ACC (R320, R321, with D24). -/
def Obligations.ClockUpdateIssuesCoreSteps : Prop :=
  ∀ (s : State) (dt : Elapsed) (c : ClockResult), clockUpdate dt s = .ok c → s.fault = .none → c.report = none →
    ∃ t : State, Host.Core.run Sys2Proof.core c.steps s = .next t ∧ c.state = { t with clkAcc := c.state.clkAcc }

/-- The charges and bounds of one update (R321, R324, with D24), in both modes: every issued step, a faulting one among them,
takes its charge times the period off the capped accumulator, so CLK_ACC ends at that less the charges of the steps issued; the
charges come to at most MAX_CATCHUP_CYCLES, and so do the steps. Without a fault what is left pays for no further step, and in
FIXED mode the steps are exactly the whole periods in the capped accumulator. -/
def Obligations.ClockUpdateStepCount : Prop :=
  ∀ (s : State) (dt : Elapsed) (c : ClockResult), Inv s → s.fault = .none → clockUpdate dt s = .ok c →
    c.steps ≤ s.params.maxCatchupCycles ∧ chargedCycles c.steps s ≤ s.params.maxCatchupCycles ∧ 0 ≤ c.state.clkAcc ∧
    c.state.clkAcc = min (s.clkAcc + dt.val) (s.params.maxCatchupCycles * clockPeriod s)
      - chargedCycles c.steps s * clockPeriod s ∧
    (c.report = none → c.state.clkAcc < stepCharge c.state * clockPeriod s ∧
      (s.timingMode = .fixed →
        (c.steps : Int) = (min (s.clkAcc + dt.val) (s.params.maxCatchupCycles * clockPeriod s) / clockPeriod s).floor))

/-- A fault ends a clock update at once, is reported and left in FAULT (R302, R321, with D21; the state it leaves is issueStep's,
log entry 10). A core already faulted is issued no step (R302); that its update then reports nothing and still adds to CLK_ACC,
changing it alone, is the model's choice (log entry 8, DEDUCED). -/
def Obligations.ClockUpdateStopsAtAFault : Prop :=
  ∀ (s : State) (dt : Elapsed) (c : ClockResult), clockUpdate dt s = .ok c →
    (s.fault ≠ .none → c.steps = 0 ∧ c.report = none ∧ ChangesOnly [.clkAcc] s c.state) ∧
    (s.fault = .none → ∀ f, c.report = some f → c.state.fault = faultCode f ∧ c.state.fault ≠ .none ∧ 1 ≤ c.steps ∧
      ∃ t u : State, Host.Core.run Sys2Proof.core (c.steps - 1) s = .next t ∧ u = { t with clkAcc := c.state.clkAcc } ∧
        step u = .fault f ∧ ChangesOnly [.fault] u c.state)

/-- LoadProgram (R362): the bytes are copied verbatim from 0x200 on, those past 0xFFF are dropped, every other byte of
memory and every other part of the state stays. -/
def Obligations.LoadProgramCopiesAndTruncates : Prop :=
  ∀ (b : List Byte) (s : State), s.mem.wf = true →
    (∀ j, j < b.length → 0x200 + j < 4096 → some ((loadProgram b s).mem.read (0x200 + j)) = b[j]?) ∧
    (∀ a, a < 0x200 ∨ 0x200 + b.length ≤ a ∨ 4096 ≤ a → (loadProgram b s).mem.read a = s.mem.read a) ∧
    ChangesOnly [.mem] s (loadProgram b s)

/-- Construction (R52, R360): memory zero but for the font at 0x050 to 0x09F, whatever the 80 font bytes, parameters and
configuration; registers, I, SP, stack, timers and display zero; pc = 0x200; the run-state items as D32 and D23 choose
them. R52 has CYCLE_RATE supplied by the host; that construction clamps it, as R50 asks of every value, is the model's choice
(log entry 17, DEDUCED). -/
def Obligations.ConstructionState : Prop :=
  ∀ (p : Params) (font : List Byte) (h : HostConfig) (s : State), font.length = 80 → s = construct p font h →
    (∀ j, j < 80 → some (s.mem.read (0x050 + j)) = font[j]?) ∧
    (∀ a, a < 0x050 ∨ 0x0A0 ≤ a → s.mem.read a = 0) ∧ s.mem.wf = true ∧
    (∀ r, s.reg r = 0) ∧ s.i = 0 ∧ s.pc.toNat = 0x200 ∧ s.sp.val = 0 ∧ (∀ k : Fin 16, s.stack[k] = 0) ∧ s.dt = 0 ∧
    s.st = 0 ∧ (∀ r c, s.fb.get r c = false) ∧ s.hires = false ∧ (∀ k, s.keyDown k = false) ∧ s.awaiting = false ∧
    s.awaitReg = 0 ∧ s.exit = false ∧ s.fault = .none ∧ s.cycleCost = 1 ∧ s.clkAcc = 0 ∧ s.tmrAcc = 0 ∧
    s.legacyShift = h.legacyShift ∧ s.legacyMemop = h.legacyMemop ∧ s.timingMode = h.timingMode ∧
    s.cycleRate = min h.cycleRate p.maxCycleRate ∧ s.params = p

/-- A change of CYCLE_RATE (R322) to a positive rate, as R50 wants it: a rate above MAX_CYCLE_RATE is clamped to it, the pending CLK_ACC keeps its value in seconds,
the next update's period is that of the new rate, and nothing else changes. -/
def Obligations.CycleRateChange : Prop :=
  ∀ (s : State) (r : Rat), 0 < r →
    (r ≤ s.params.maxCycleRate → (setCycleRate r s).cycleRate = r) ∧
    (s.params.maxCycleRate < r → (setCycleRate r s).cycleRate = s.params.maxCycleRate) ∧
    (setCycleRate r s).clkAcc = s.clkAcc ∧
    (s.timingMode = .fixed → clockPeriod (setCycleRate r s) = 1 / (setCycleRate r s).cycleRate) ∧
    ChangesOnly [.config] s (setCycleRate r s) ∧ (setCycleRate r s).timingMode = s.timingMode ∧
    (setCycleRate r s).legacyShift = s.legacyShift ∧ (setCycleRate r s).legacyMemop = s.legacyMemop

/-- A change of TIMING_MODE (R323, with D23 and D24): CYCLE_COST becomes 1, CLK_ACC stays, the next update's period is that of
the new mode, and nothing else changes. -/
def Obligations.TimingModeChange : Prop :=
  ∀ (s : State) (m : TimingMode), m ≠ s.timingMode →
    (setTimingMode m s).timingMode = m ∧ (setTimingMode m s).cycleCost = 1 ∧
    clockPeriod (setTimingMode m s)
      = (match m with | .fixed => 1 / s.cycleRate | .accurate => 1 / s.params.accurateBaseRate) ∧
    ChangesOnly [.config, .cycleCost] s (setTimingMode m s) ∧ (setTimingMode m s).cycleRate = s.cycleRate ∧
    (setTimingMode m s).legacyShift = s.legacyShift ∧ (setTimingMode m s).legacyMemop = s.legacyMemop

/-- The framebuffer view (R345, with D3): 64 rows of 128 bits in high resolution, 32 rows of 64 in low, the top-left bit
of each block; the tone is on while ST ≠ 0 (R312). -/
def Obligations.ReadoutShowsTheFramebuffer : Prop :=
  ∀ (s : State) (x y : Nat),
    (s.hires = true → y < 64 → x < 128 → (readout s).view[y]?.bind (·[x]?) = some (s.fb.get y x)) ∧
    (s.hires = true → (readout s).view.length = 64 ∧ ∀ row ∈ (readout s).view, row.length = 128) ∧
    (s.hires = false → y < 32 → x < 64 → (readout s).view[y]?.bind (·[x]?) = some (s.fb.get (2 * y) (2 * x))) ∧
    (s.hires = false → (readout s).view.length = 32 ∧ ∀ row ∈ (readout s).view, row.length = 64) ∧
    ((readout s).toneOn = true ↔ s.st ≠ 0)

/-! ### The invariant -/

/-- The invariant holds right after reset. The parameter and configuration values of `State.reset` are the model's (log
entries 5, 6). -/
def Obligations.InvariantAtReset : Prop := Inv State.reset

/-- Every step keeps the invariant, from every state that meets it (R36, R47, R305, R325). -/
def Obligations.StepKeepsInvariant : Prop := ∀ s t : State, Inv s → step s = .next t → Inv t

/-- Every host action keeps the invariant: frames with their key events, clock and timer updates and faults, program
loads and configuration changes (R305, R310, R321, R325, R340, R362). -/
def Obligations.HostActionsKeepInvariant : Prop :=
  ∀ (a : HostAction) (s t : State), Inv s → a.Dutiful → hostAction a s = .ok t → Inv t
end

