-- ==== Sys2Proof/Laws/Decode.lean ====
section
/-! SUPPORT. The fields of a word and its parts, as numbers: what a proof about decoding cites instead of unfolding bits
(spec 30_encoding.md R102). -/

namespace Sys2Proof

open Sys2Proof.Config

theorem toNat_nibbles (a b c d : Nibble) :
    (nibbles a b c d).toNat = a.toNat * 4096 + b.toNat * 256 + c.toNat * 16 + d.toNat := by
  simp only [nibbles, BitVec.toNat_append, Nat.shiftLeft_eq]
  have ha := a.isLt; have hb := b.isLt; have hc := c.isLt; have hd := d.isLt
  rw [← Nat.shiftLeft_eq, ← Nat.shiftLeft_eq, ← Nat.shiftLeft_eq,
    ← Nat.shiftLeft_add_eq_or_of_lt (by omega), ← Nat.shiftLeft_add_eq_or_of_lt (by omega),
    ← Nat.shiftLeft_add_eq_or_of_lt (by omega)]
  simp only [Nat.shiftLeft_eq]
  omega

theorem toNat_wordXNN (f : Nibble) (x : RegIx) (nn : Byte) :
    (wordXNN f x nn).toNat = f.toNat * 4096 + x.val * 256 + nn.toNat := by
  simp only [wordXNN, BitVec.toNat_append]
  have hf := f.isLt; have hx := x.isLt; have hn := nn.isLt
  have hr : (regField x).toNat = x.val := rfl
  rw [← Nat.shiftLeft_add_eq_or_of_lt (by omega), ← Nat.shiftLeft_add_eq_or_of_lt (by omega), hr]
  simp only [Nat.shiftLeft_eq]
  omega

theorem toNat_wordNNN (f : Nibble) (nnn : Imm12) : (wordNNN f nnn).toNat = f.toNat * 4096 + nnn.toNat := by
  simp only [wordNNN, BitVec.toNat_append]
  rw [← Nat.shiftLeft_add_eq_or_of_lt (by omega)]
  simp only [Nat.shiftLeft_eq]

theorem toNat_wordOfBytes (hi lo : Byte) : (wordOfBytes hi lo).toNat = 256 * hi.toNat + lo.toNat := by
  simp only [wordOfBytes, BitVec.toNat_append]
  rw [← Nat.shiftLeft_add_eq_or_of_lt (by omega)]
  simp only [Nat.shiftLeft_eq]
  omega

variable (w : Word)

theorem toNat_fieldF : (fieldF w).toNat = w.toNat / 4096 := by
  have := w.isLt
  simp only [fieldF, BitVec.extractLsb_toNat, Nat.shiftRight_eq_div_pow]; omega

theorem val_fieldX : (fieldX w).val = w.toNat / 256 % 16 := by
  simp only [fieldX, BitVec.val_toFin, BitVec.extractLsb_toNat, Nat.shiftRight_eq_div_pow]

theorem val_fieldY : (fieldY w).val = w.toNat / 16 % 16 := by
  simp only [fieldY, BitVec.val_toFin, BitVec.extractLsb_toNat, Nat.shiftRight_eq_div_pow]

theorem toNat_fieldN : (fieldN w).toNat = w.toNat % 16 := by
  simp only [fieldN, BitVec.extractLsb_toNat, Nat.shiftRight_eq_div_pow]; omega

theorem toNat_fieldNN : (fieldNN w).toNat = w.toNat % 256 := by
  simp only [fieldNN, BitVec.extractLsb_toNat, Nat.shiftRight_eq_div_pow]; omega

theorem toNat_fieldNNN : (fieldNNN w).toNat = w.toNat % 4096 := by
  simp only [fieldNNN, BitVec.extractLsb_toNat, Nat.shiftRight_eq_div_pow]; omega

theorem toNat_regField (x : RegIx) : (regField x).toNat = x.val := rfl

/-! ### The fields of a word put together from fields -/

section
variable (f a b c : Nibble) (x y : RegIx) (nn : Byte) (nnn : Imm12)

@[simp] theorem fieldF_nibbles : fieldF (nibbles f a b c) = f := by
  apply BitVec.eq_of_toNat_eq; rw [toNat_fieldF, toNat_nibbles]; omega
@[simp] theorem fieldX_nibbles : fieldX (nibbles f (regField x) b c) = x := by
  apply Fin.ext; rw [val_fieldX, toNat_nibbles, toNat_regField]; omega
@[simp] theorem fieldY_nibbles : fieldY (nibbles f a (regField y) c) = y := by
  apply Fin.ext; rw [val_fieldY, toNat_nibbles, toNat_regField]; omega
@[simp] theorem fieldN_nibbles : fieldN (nibbles f a b c) = c := by
  apply BitVec.eq_of_toNat_eq; rw [toNat_fieldN, toNat_nibbles]; omega
@[simp] theorem fieldF_wordXNN : fieldF (wordXNN f x nn) = f := by
  apply BitVec.eq_of_toNat_eq; rw [toNat_fieldF, toNat_wordXNN]; omega
@[simp] theorem fieldX_wordXNN : fieldX (wordXNN f x nn) = x := by
  apply Fin.ext; rw [val_fieldX, toNat_wordXNN]; omega
@[simp] theorem fieldNN_wordXNN : fieldNN (wordXNN f x nn) = nn := by
  apply BitVec.eq_of_toNat_eq; rw [toNat_fieldNN, toNat_wordXNN]; omega
@[simp] theorem fieldF_wordNNN : fieldF (wordNNN f nnn) = f := by
  apply BitVec.eq_of_toNat_eq; rw [toNat_fieldF, toNat_wordNNN]; omega
@[simp] theorem fieldNNN_wordNNN : fieldNNN (wordNNN f nnn) = nnn := by
  apply BitVec.eq_of_toNat_eq; rw [toNat_fieldNNN, toNat_wordNNN]; omega

/-- A word is its four nibbles, its family with X and NN, its family with NNN. -/
theorem nibbles_fields : nibbles (fieldF w) (regField (fieldX w)) (regField (fieldY w)) (fieldN w) = w := by
  apply BitVec.eq_of_toNat_eq
  rw [toNat_nibbles, toNat_regField, toNat_regField, toNat_fieldF, val_fieldX, val_fieldY, toNat_fieldN]; omega
theorem wordXNN_fields : wordXNN (fieldF w) (fieldX w) (fieldNN w) = w := by
  apply BitVec.eq_of_toNat_eq; rw [toNat_wordXNN, toNat_fieldF, val_fieldX, toNat_fieldNN]; omega
theorem wordNNN_fields : wordNNN (fieldF w) (fieldNNN w) = w := by
  apply BitVec.eq_of_toNat_eq; rw [toNat_wordNNN, toNat_fieldF, toNat_fieldNNN]; omega
end

/-! ### The masks of the opcode table (R114) -/

theorem and_nibbles (a b c d a' b' c' d' : Nibble) :
    nibbles a b c d &&& nibbles a' b' c' d' = nibbles (a &&& a') (b &&& b') (c &&& c') (d &&& d') := by
  change ((a ++ b ++ c ++ d : BitVec (4 + 4 + 4 + 4)) &&& (a' ++ b' ++ c' ++ d')) = _
  rw [BitVec.and_append, BitVec.and_append, BitVec.and_append]; rfl

theorem nibble_and_ones (a : Nibble) : a &&& 15#4 = a := by revert a; decide

/-- The mask of families told apart by the first nibble alone. -/
theorem and_F000 : w &&& 0xF000#16 = nibbles (fieldF w) 0#4 0 0 := by
  conv_lhs => rw [← nibbles_fields w, show 0xF000#16 = nibbles 0xF 0 0 0 from rfl, and_nibbles]
  simp [nibble_and_ones]

/-- The mask of family 8. -/
theorem and_F00F : w &&& 0xF00F#16 = nibbles (fieldF w) 0#4 0 (fieldN w) := by
  conv_lhs => rw [← nibbles_fields w, show 0xF00F#16 = nibbles 0xF 0 0 0xF from rfl, and_nibbles]
  simp [nibble_and_ones]

/-- The mask of 00CN. -/
theorem and_FFF0 : w &&& 0xFFF0#16 = nibbles (fieldF w) (regField (fieldX w)) (regField (fieldY w)) 0 := by
  conv_lhs => rw [← nibbles_fields w, show 0xFFF0#16 = nibbles 0xF 0xF 0xF 0 from rfl, and_nibbles]
  simp [nibble_and_ones]

/-- The mask of families E and F. -/
theorem and_F0FF : w &&& 0xF0FF#16 = wordXNN (fieldF w) 0 (fieldNN w) := by
  have h : w &&& 0xF0FF#16 = nibbles (fieldF w) 0#4 (regField (fieldY w)) (fieldN w) := by
    conv_lhs => rw [← nibbles_fields w, show 0xF0FF#16 = nibbles 0xF 0 0xF 0xF from rfl, and_nibbles]
    simp [nibble_and_ones]
  rw [h]
  apply BitVec.eq_of_toNat_eq
  rw [toNat_nibbles, toNat_wordXNN, toNat_regField, val_fieldY, toNat_fieldN, toNat_fieldNN]
  simp only [BitVec.toNat_ofNat, Fin.val_zero]
  omega

end Sys2Proof
end

