-- ==== Sys2Proof/Laws/Framebuffer.lean ====
section
/-! SUPPORT. The laws of the framebuffer: what one bit reads as after each operation of Machine/Framebuffer.lean (spec
42_display.md R200 to R212). -/

namespace Sys2Proof.Machine

/-! ### Single bits, clearing and scrolling -/

/-- Outside the 128 columns there is no bit. -/
theorem Framebuffer.get_col_ge (fb : Framebuffer) (r : Nat) {c : Nat} (h : 128 ≤ c) : fb.get r c = false := by
  unfold Framebuffer.get
  split
  case isTrue hr => exact BitVec.getMsbD_of_ge _ _ h
  case isFalse => rfl

/-- Framebuffers whose 64 × 128 bits agree are equal. -/
theorem Framebuffer.ext_get {f g : Framebuffer} (h : ∀ r c, r < 64 → c < 128 → f.get r c = g.get r c) : f = g := by
  apply Vector.ext
  intro r hr
  apply BitVec.eq_of_getMsbD_eq
  intro c hc
  simpa [Framebuffer.get, hr] using h r c hr hc

/-- Inverting one bit inverts that bit and no other (R203). -/
theorem Framebuffer.get_flip (fb : Framebuffer) {r c : Nat} (hr : r < 64) (hc : c < 128) (r' c' : Nat) :
    (fb.flip r c).get r' c' = (fb.get r' c' != decide (r' = r ∧ c' = c)) := by
  unfold Framebuffer.flip Framebuffer.get
  simp only [hr, dif_pos]
  by_cases hr' : r' < 64
  · simp only [hr', dif_pos]
    by_cases he : r' = r
    · subst he
      have hm : (columnMask c).getMsbD c' = decide (c' = c) := by
        unfold columnMask
        rw [BitVec.getMsbD_ushiftRight, BitVec.getMsbD_twoPow]
        by_cases h1 : c' = c
        · subst h1; simp [hc]
        · by_cases h2 : c' < 128
          · by_cases h3 : c' < c
            · simp [h1, h3]
            · simp [h1, h3, h2]; omega
          · simp [h1, h2]
      simp [BitVec.getMsbD_xor, hm]
    · have : r ≠ r' := fun e => he e.symm
      simp [he, this]
  · have : r' ≠ r := by omega
    simp [hr', this]

@[simp] theorem Framebuffer.row_ofRows (f : Nat → BitVec 128) {r : Nat} (h : r < 64) :
    (Framebuffer.ofRows f)[r] = f r := by
  simp [Framebuffer.ofRows]

theorem Framebuffer.get_ofRows (f : Nat → BitVec 128) {r : Nat} (h : r < 64) (c : Nat) :
    (Framebuffer.ofRows f).get r c = (f r).getMsbD c := by
  simp [Framebuffer.get, h]

theorem Framebuffer.getMsbD_row (fb : Framebuffer) {r : Nat} (h : r < 64) (c : Nat) :
    (fb.row r).getMsbD c = fb.get r c := by
  simp [Framebuffer.row, Framebuffer.get, h]

/-- A cleared framebuffer has no bit set (R201). -/
theorem Framebuffer.get_clear (r c : Nat) : Framebuffer.clear.get r c = false := by
  by_cases h : r < 64
  · rw [Framebuffer.clear, Framebuffer.get_ofRows _ h]; simp
  · simp [Framebuffer.get, h]

/-- R207. -/
theorem Framebuffer.get_scrollDown (fb : Framebuffer) (n : Nat) {r : Nat} (h : r < 64) (c : Nat) :
    (fb.scrollDown n).get r c = if n ≤ r then fb.get (r - n) c else false := by
  rw [Framebuffer.scrollDown, Framebuffer.get_ofRows _ h]
  split
  case isTrue => exact fb.getMsbD_row (by omega) c
  case isFalse => simp

/-- R208. -/
theorem Framebuffer.get_scrollRight4 (fb : Framebuffer) {r c : Nat} (h : r < 64) (hc : c < 128) :
    fb.scrollRight4.get r c = if 4 ≤ c then fb.get r (c - 4) else false := by
  rw [Framebuffer.scrollRight4, Framebuffer.get_ofRows _ h, BitVec.getMsbD_ushiftRight, fb.getMsbD_row h]
  by_cases h4 : 4 ≤ c
  · simp [hc, h4]
  · simp [h4]

/-- R209. -/
theorem Framebuffer.get_scrollLeft4 (fb : Framebuffer) {r : Nat} (h : r < 64) (c : Nat) :
    fb.scrollLeft4.get r c = if c ≤ 123 then fb.get r (c + 4) else false := by
  rw [Framebuffer.scrollLeft4, Framebuffer.get_ofRows _ h, BitVec.getMsbD_shiftLeft, fb.getMsbD_row h]
  split
  case isTrue => rfl
  case isFalse hc => exact fb.get_col_ge r (by omega)

/-! ### Drawing as plotting a list of places -/

/-- Plot every place of a list in order. -/
def plotAll (l : List (Nat × Nat)) (a : Framebuffer × Bool) : Framebuffer × Bool :=
  l.foldl (fun a p => plot p.1 p.2 a) a

/-- Every place of the list is one of the 64 × 128 (R212). -/
def InScreen (l : List (Nat × Nat)) : Prop := ∀ p ∈ l, p.1 < 64 ∧ p.2 < 128

/-- Plotting distinct places inverts exactly those, and hits exactly where one of them was set before the draw (R205). -/
theorem plotAll_spec {l : List (Nat × Nat)} (hn : l.Nodup) (hs : InScreen l) (a : Framebuffer × Bool) :
    (∀ r c, (plotAll l a).1.get r c = (a.1.get r c != decide ((r, c) ∈ l))) ∧
    (plotAll l a).2 = (a.2 || l.any fun p => a.1.get p.1 p.2) := by
  induction l generalizing a with
  | nil => simp [plotAll]
  | cons p l ih =>
    obtain ⟨hp, hn⟩ := List.nodup_cons.mp hn
    have hin := hs p (by simp)
    obtain ⟨h1, h2⟩ := ih hn (fun q hq => hs q (by simp [hq])) (plot p.1 p.2 a)
    have hg : ∀ r c, (plot p.1 p.2 a).1.get r c = (a.1.get r c != decide (r = p.1 ∧ c = p.2)) :=
      fun r c => a.1.get_flip hin.1 hin.2 r c
    refine ⟨fun r c => ?_, ?_⟩
    · change (plotAll l (plot p.1 p.2 a)).1.get r c = _
      rw [h1, hg]
      by_cases he : (r, c) = p
      · subst he; simp [hp]
      · have : ¬(r = p.1 ∧ c = p.2) := fun e => he (Prod.ext e.1 e.2)
        simp [he, this]
    · change (plotAll l (plot p.1 p.2 a)).2 = _
      rw [h2]
      have : (l.any fun q => (plot p.1 p.2 a).1.get q.1 q.2) = l.any fun q => a.1.get q.1 q.2 := by
        rw [Bool.eq_iff_iff]
        simp only [List.any_eq_true]
        refine exists_congr fun q => and_congr_right fun hq => ?_
        have hne : ¬(q.1 = p.1 ∧ q.2 = p.2) := fun e => hp (Prod.ext e.1 e.2 ▸ hq)
        rw [hg]; simp [hne]
      rw [this]
      simp [plot, Bool.or_assoc]

/-- The places of one sprite byte, `place c` for each set bit, bit 7 (c = 0) first. -/
def bytePlaces (place : Nat → List (Nat × Nat)) (b : Byte) : List (Nat × Nat) :=
  (List.range 8).flatMap fun c => if b.getMsbD c then place c else []

/-- A byte drawn with a plotter that plots lists of places plots the list of all of them. -/
theorem plotByte_eq {f : Nat → Framebuffer × Bool → Framebuffer × Bool} {place : Nat → List (Nat × Nat)}
    (h : ∀ c a, f c a = plotAll (place c) a) (b : Byte) (a : Framebuffer × Bool) :
    plotByte f b a = plotAll (bytePlaces place b) a := by
  unfold plotByte bytePlaces
  generalize List.range 8 = l
  induction l generalizing a with
  | nil => rfl
  | cons c l ih =>
    simp only [List.foldl_cons, List.flatMap_cons]
    rw [ih]
    unfold plotAll
    rw [List.foldl_append]
    congr 1
    split
    · rw [h]; rfl
    · rfl

theorem mem_bytePlaces {place : Nat → List (Nat × Nat)} {b : Byte} {p : Nat × Nat} :
    p ∈ bytePlaces place b ↔ ∃ c, c < 8 ∧ b.getLsbD (7 - c) = true ∧ p ∈ place c := by
  unfold bytePlaces
  simp only [List.mem_flatMap, List.mem_range]
  refine exists_congr fun c => and_congr_right fun hc => ?_
  have : b.getMsbD c = b.getLsbD (7 - c) := by
    simp [BitVec.getMsbD, hc]
  rw [this]
  split <;> simp_all

/-- The places of a byte are distinct when those of each bit are and different bits share none. -/
theorem nodup_bytePlaces {place : Nat → List (Nat × Nat)} (b : Byte) (h1 : ∀ c, c < 8 → (place c).Nodup)
    (h2 : ∀ c d, c < 8 → d < 8 → c ≠ d → List.Disjoint (place c) (place d)) : (bytePlaces place b).Nodup := by
  unfold bytePlaces
  rw [List.nodup_flatMap]
  refine ⟨fun c hc => ?_, ?_⟩
  · split
    · exact h1 c (List.mem_range.mp hc)
    · exact List.nodup_nil
  · apply List.Pairwise.imp_of_mem _ (List.nodup_range (n := 8))
    intro c d hc hd hne
    have := h2 c d (List.mem_range.mp hc) (List.mem_range.mp hd) hne
    simp only [Function.onFun]
    split <;> split <;> simp_all [List.Disjoint]

/-! ### The low-resolution draw (R203) -/

/-- The four bits of the block of logical pixel (lx, ly) (R200). -/
def blockPlaces (lx ly : Nat) : List (Nat × Nat) :=
  [(2 * ly, 2 * lx), (2 * ly, 2 * lx + 1), (2 * ly + 1, 2 * lx), (2 * ly + 1, 2 * lx + 1)]

theorem plotBlock_eq (lx ly : Nat) (a : Framebuffer × Bool) : plotBlock lx ly a = plotAll (blockPlaces lx ly) a := rfl

theorem mem_blockPlaces {lx ly r c : Nat} : (r, c) ∈ blockPlaces lx ly ↔ ly = r / 2 ∧ lx = c / 2 := by
  simp only [blockPlaces, List.mem_cons, Prod.mk.injEq, List.not_mem_nil, or_false]
  omega

theorem nodup_blockPlaces (lx ly : Nat) : (blockPlaces lx ly).Nodup := by
  simp [blockPlaces]

/-- The places of the low-resolution sprite rows from row `r` on. -/
def lowPlaces (xs ys : Nat) : Nat → List Byte → List (Nat × Nat)
  | _, []      => []
  | r, b :: bs => bytePlaces (fun c => blockPlaces ((xs + c) % 64) ((ys + r) % 32)) b ++ lowPlaces xs ys (r + 1) bs

theorem drawLow_eq (xs ys r : Nat) (bs : List Byte) (a : Framebuffer × Bool) :
    drawLow xs ys r bs a = plotAll (lowPlaces xs ys r bs) a := by
  induction bs generalizing r a with
  | nil => rfl
  | cons b bs ih =>
    simp only [drawLow, lowPlaces]
    rw [ih, plotByte_eq (f := fun c => plotBlock ((xs + c) % 64) ((ys + r) % 32)) (fun c a => plotBlock_eq _ _ a)]
    unfold plotAll
    rw [List.foldl_append]

theorem mem_lowPlaces {xs ys r : Nat} {bs : List Byte} {p : Nat × Nat} :
    p ∈ lowPlaces xs ys r bs ↔ ∃ k j, k < bs.length ∧ j < 8 ∧ (bs.getD k 0).getLsbD (7 - j) = true ∧
      (xs + j) % 64 = p.2 / 2 ∧ (ys + (r + k)) % 32 = p.1 / 2 := by
  induction bs generalizing r with
  | nil => simp [lowPlaces]
  | cons b bs ih =>
    obtain ⟨p1, p2⟩ := p
    simp only [lowPlaces, List.mem_append, mem_bytePlaces, mem_blockPlaces, ih]
    constructor
    · rintro (⟨c, hc, hb, hy, hx⟩ | ⟨k, j, hk, hj, hb, hx, hy⟩)
      · exact ⟨0, c, by simp, hc, by simpa using hb, hx, by simpa using hy⟩
      · exact ⟨k + 1, j, by simpa using hk, hj, by simpa using hb, hx, by rw [← hy]; congr 1; omega⟩
    · rintro ⟨k, j, hk, hj, hb, hx, hy⟩
      cases k with
      | zero => exact .inl ⟨j, hj, by simpa using hb, by simpa using hy, hx⟩
      | succ k =>
        exact .inr ⟨k, j, by simpa using hk, hj, by simpa using hb, hx, by rw [← hy]; congr 1; omega⟩

theorem inScreen_lowPlaces (xs ys r : Nat) (bs : List Byte) : InScreen (lowPlaces xs ys r bs) := by
  intro p hp
  obtain ⟨k, j, _, _, _, hx, hy⟩ := mem_lowPlaces.mp hp
  omega

theorem nodup_lowPlaces (xs ys r : Nat) {bs : List Byte} (h : bs.length ≤ 16) : (lowPlaces xs ys r bs).Nodup := by
  induction bs generalizing r with
  | nil => exact List.nodup_nil
  | cons b bs ih =>
    simp only [List.length_cons] at h
    rw [lowPlaces, List.nodup_append']
    refine ⟨?_, ih (r + 1) (by omega), ?_⟩
    · apply nodup_bytePlaces
      · exact fun c _ => nodup_blockPlaces _ _
      · intro c d hc hd hne p hp hq
        obtain ⟨p1, p2⟩ := p
        rw [mem_blockPlaces] at hp hq
        omega
    · intro p hp hq
      obtain ⟨p1, p2⟩ := p
      simp only [mem_bytePlaces, mem_blockPlaces] at hp
      obtain ⟨c, hc, _, hy, _⟩ := hp
      obtain ⟨k, j, hk, _, _, _, hy'⟩ := mem_lowPlaces.mp hq
      simp only at hy'
      omega

/-! ### The high-resolution draw (R204) -/

/-- The places of one high-resolution row of sprite bytes from byte `k` on. -/
def highRowPlaces (xs y : Nat) : Nat → List Byte → List (Nat × Nat)
  | _, []      => []
  | k, b :: bs => bytePlaces (fun c => [(y, (xs + 8 * k + c) % 128)]) b ++ highRowPlaces xs y (k + 1) bs

theorem drawHighRow_eq (xs y k : Nat) (bs : List Byte) (a : Framebuffer × Bool) :
    drawHighRow xs y k bs a = plotAll (highRowPlaces xs y k bs) a := by
  induction bs generalizing k a with
  | nil => rfl
  | cons b bs ih =>
    simp only [drawHighRow, highRowPlaces]
    rw [ih, plotByte_eq (f := fun c => plot y ((xs + 8 * k + c) % 128))
      (place := fun c => [(y, (xs + 8 * k + c) % 128)]) (fun c a => rfl)]
    unfold plotAll
    rw [List.foldl_append]

theorem mem_highRowPlaces {xs y k : Nat} {bs : List Byte} {p : Nat × Nat} :
    p ∈ highRowPlaces xs y k bs ↔ p.1 = y ∧ ∃ q j, q < bs.length ∧ j < 8 ∧ (bs.getD q 0).getLsbD (7 - j) = true ∧
      (xs + 8 * (k + q) + j) % 128 = p.2 := by
  induction bs generalizing k with
  | nil => simp [highRowPlaces]
  | cons b bs ih =>
    obtain ⟨p1, p2⟩ := p
    simp only [highRowPlaces, List.mem_append, mem_bytePlaces, List.mem_singleton, Prod.mk.injEq, ih]
    constructor
    · rintro (⟨c, hc, hb, hy, hx⟩ | ⟨hy, q, j, hq, hj, hb, hx⟩)
      · exact ⟨hy, 0, c, by simp, hc, by simpa using hb, hx.symm⟩
      · exact ⟨hy, q + 1, j, by simpa using hq, hj, by simpa using hb, by rw [← hx]; congr 1; omega⟩
    · rintro ⟨hy, q, j, hq, hj, hb, hx⟩
      cases q with
      | zero => exact .inl ⟨j, hj, by simpa using hb, hy, hx.symm⟩
      | succ q => exact .inr ⟨hy, q, j, by simpa using hq, hj, by simpa using hb, by rw [← hx]; congr 1; omega⟩

theorem inScreen_highRowPlaces {xs y k : Nat} {bs : List Byte} (hy : y < 64) : InScreen (highRowPlaces xs y k bs) := by
  intro p hp
  obtain ⟨h1, q, j, _, _, _, hx⟩ := mem_highRowPlaces.mp hp
  omega

theorem nodup_highRowPlaces (xs y k : Nat) {bs : List Byte} (h : bs.length ≤ 16) :
    (highRowPlaces xs y k bs).Nodup := by
  induction bs generalizing k with
  | nil => exact List.nodup_nil
  | cons b bs ih =>
    simp only [List.length_cons] at h
    rw [highRowPlaces, List.nodup_append']
    refine ⟨?_, ih (k + 1) (by omega), ?_⟩
    · apply nodup_bytePlaces
      · exact fun c _ => List.nodup_singleton _
      · intro c d hc hd hne p hp hq
        simp only [List.mem_singleton] at hp hq
        rw [hp] at hq
        have := congrArg Prod.snd hq
        simp only at this
        omega
    · intro p hp hq
      simp only [mem_bytePlaces, List.mem_singleton] at hp
      obtain ⟨c, hc, _, hp⟩ := hp
      obtain ⟨_, q, j, hq', hj, _, hx⟩ := mem_highRowPlaces.mp hq
      rw [hp] at hx
      simp only at hx
      omega

/-- Whether a set bit of a row of sprite bytes covers column `c`, columns wrapping (R204). -/
def rowCovers (xs : Nat) (bs : List Byte) (c : Nat) : Bool :=
  (List.range (8 * bs.length)).any fun j => (bs.getD (j / 8) 0).getLsbD (7 - j % 8) && (xs + j) % 128 == c

theorem mem_highRowPlaces_iff {xs y : Nat} {bs : List Byte} {r c : Nat} :
    (r, c) ∈ highRowPlaces xs y 0 bs ↔ r = y ∧ rowCovers xs bs c = true := by
  rw [mem_highRowPlaces]
  simp only [rowCovers, List.any_eq_true, List.mem_range, Bool.and_eq_true, beq_iff_eq, Nat.zero_add]
  refine and_congr_right fun _ => ⟨?_, ?_⟩
  · rintro ⟨q, j, hq, hj, hb, hx⟩
    have h1 : (8 * q + j) / 8 = q := by omega
    have h2 : (8 * q + j) % 8 = j := by omega
    exact ⟨8 * q + j, by omega, by rw [h1, h2]; exact hb, by rw [← hx]; congr 1; omega⟩
  · rintro ⟨j, hj, hb, hx⟩
    exact ⟨j / 8, j % 8, by omega, Nat.mod_lt _ (by omega), hb, by rw [← hx]; congr 1; omega⟩

/-- One high-resolution row inverts the columns it covers in its own row, and hits where one of them was set (R204,
R205). -/
theorem drawHighRow_spec {xs y : Nat} {bs : List Byte} (hy : y < 64) (hl : bs.length ≤ 16) (fb : Framebuffer) :
    (∀ r c, (drawHighRow xs y 0 bs (fb, false)).1.get r c = (fb.get r c != (decide (r = y) && rowCovers xs bs c))) ∧
    (drawHighRow xs y 0 bs (fb, false)).2 = (List.range 128).any fun c => fb.get y c && rowCovers xs bs c := by
  rw [drawHighRow_eq]
  obtain ⟨h1, h2⟩ := plotAll_spec (nodup_highRowPlaces xs y 0 hl) (inScreen_highRowPlaces hy) (fb, false)
  refine ⟨fun r c => ?_, ?_⟩
  · rw [h1]
    congr 1
    rw [Bool.eq_iff_iff]
    simp [mem_highRowPlaces_iff]
  · rw [h2, Bool.eq_iff_iff]
    simp only [Bool.false_or, List.any_eq_true, List.mem_range, Bool.and_eq_true]
    constructor
    · rintro ⟨⟨r, c⟩, hp, hg⟩
      have hc := (inScreen_highRowPlaces hy _ hp).2
      obtain ⟨rfl, hcov⟩ := mem_highRowPlaces_iff.mp hp
      exact ⟨c, hc, hg, hcov⟩
    · rintro ⟨c, _, hg, hcov⟩
      exact ⟨(y, c), mem_highRowPlaces_iff.mpr ⟨rfl, hcov⟩, hg⟩

/-- The high-resolution draw of rows that lie above the bottom edge: row k inverts what it covers in physical row y + k, and
the count grows by the rows that hit a bit set before the draw (R204, R205). -/
theorem drawHigh_spec {xs y : Nat} {rows : List (List Byte)} (hy : y + rows.length ≤ 64)
    (hl : ∀ row ∈ rows, row.length ≤ 16) (fb : Framebuffer) (n : Nat) :
    (∀ r c, (drawHigh xs y rows (fb, n)).1.get r c
      = (fb.get r c != (decide (y ≤ r ∧ r < y + rows.length) && rowCovers xs (rows.getD (r - y) []) c))) ∧
    (drawHigh xs y rows (fb, n)).2 = n + (List.range rows.length).countP fun k =>
      (List.range 128).any fun c => fb.get (y + k) c && rowCovers xs (rows.getD k []) c := by
  induction rows generalizing y fb n with
  | nil => simp [drawHigh, show ∀ r, ¬(y ≤ r ∧ r < y) by omega]
  | cons row rows ih =>
    simp only [List.length_cons] at hy
    obtain ⟨g1, g2⟩ := drawHighRow_spec (xs := xs) (y := y) (by omega) (hl row (by simp)) fb
    obtain ⟨h1, h2⟩ := ih (y := y + 1) (by omega) (fun q hq => hl q (by simp [hq]))
      (drawHighRow xs y 0 row (fb, false)).1 (n + (drawHighRow xs y 0 row (fb, false)).2.toNat)
    simp only [drawHigh]
    refine ⟨fun r c => ?_, ?_⟩
    · rw [h1, g1]
      by_cases hr : r = y
      · subst hr
        simp
      · by_cases hin : y + 1 ≤ r ∧ r < y + 1 + rows.length
        · have hk : r - y = (r - (y + 1)) + 1 := by omega
          simp [hr, hin, hk, show y ≤ r ∧ r < y + (rows.length + 1) by omega]
        · rw [List.length_cons, decide_eq_false hin, decide_eq_false (show ¬(y ≤ r ∧ r < y + (rows.length + 1)) by omega)]
          simp [hr]
    · rw [h2, g2, List.length_cons, List.range_succ_eq_map (n := rows.length), List.countP_cons, List.countP_map]
      have : (List.range rows.length).countP (fun k => (List.range 128).any fun c =>
            (drawHighRow xs y 0 row (fb, false)).1.get (y + 1 + k) c && rowCovers xs (rows.getD k []) c)
          = (List.range rows.length).countP ((fun k => (List.range 128).any fun c =>
            fb.get (y + k) c && rowCovers xs ((row :: rows).getD k []) c) ∘ Nat.succ) := by
        congr 1
        funext k
        simp only [Function.comp, List.getD_cons_succ]
        congr 1
        funext c
        rw [g1, show y + 1 + k = y + (k + 1) by omega]
        simp
      rw [this]
      simp only [Nat.add_zero, List.getD_cons_zero]
      cases (List.range 128).any fun c => fb.get y c && rowCovers xs row c <;> simp <;> omega

/-! ### Sprite bytes as rows (R204) -/

theorem pairRows_length {bytes : List Byte} {m : Nat} (h : bytes.length = 2 * m) : (pairRows bytes).length = m := by
  induction m generalizing bytes with
  | zero => rw [List.length_eq_zero_iff.mp h]; rfl
  | succ m ih =>
    match bytes, h with
    | a :: b :: rest, h => simp only [List.length_cons] at h; simp [pairRows, ih (bytes := rest) (by omega)]

theorem pairRows_getD {bytes : List Byte} {m k : Nat} (h : bytes.length = 2 * m) (hk : k < m) :
    (pairRows bytes).getD k [] = [bytes.getD (2 * k) 0, bytes.getD (2 * k + 1) 0] := by
  induction m generalizing bytes k with
  | zero => omega
  | succ m ih =>
    match bytes, h with
    | a :: b :: rest, h =>
      simp only [List.length_cons] at h
      cases k with
      | zero => simp [pairRows]
      | succ k =>
        have := ih (bytes := rest) (k := k) (by omega) (by omega)
        simp only [pairRows, List.getD_cons_succ, this]
        rw [show 2 * (k + 1) = 2 * k + 1 + 1 by omega]
        simp

/-- The rows of a sprite of `m` rows: how many they are, how long, and which byte stands where. -/
theorem spriteRows_spec {wb m : Nat} {bytes : List Byte} (hw : wb = 1 ∨ wb = 2) (h : bytes.length = wb * m) :
    (spriteRows wb bytes).length = m ∧ (∀ k, k < m → ((spriteRows wb bytes).getD k []).length = wb) ∧
    ∀ k q, k < m → q < wb → ((spriteRows wb bytes).getD k []).getD q 0 = bytes.getD (wb * k + q) 0 := by
  rcases hw with rfl | rfl
  · have hm : bytes.length = m := by omega
    refine ⟨by simp [spriteRows, hm], fun k hk => ?_, fun k q hk hq => ?_⟩
    · simp [spriteRows, hm, hk]
    · obtain rfl : q = 0 := by omega
      simp [spriteRows, hm, hk]
  · refine ⟨by simp [spriteRows, pairRows_length h], fun k hk => ?_, fun k q hk hq => ?_⟩
    · simp only [spriteRows, if_true]
      rw [pairRows_getD h hk]; rfl
    · simp only [spriteRows, if_true]
      rw [pairRows_getD h hk]
      match q, hq with
      | 0, _ => simp
      | 1, _ => simp

end Sys2Proof.Machine
end

