-- ==== Sys2Proof/Laws/Memory.lean ====
section
/-! SUPPORT. The laws of memory: a read after a write, the canonical form, and bytes copied in (spec 20_memory.md R75, R80;
70_reset_and_hazards.md R362). -/

namespace Sys2Proof.Machine.Memory

open Sys2Proof.Machine

/-- A canonical memory from `lo` on lists nothing below `lo`, so there the background shows. -/
theorem read_below {m : Memory} {lo a : Nat} (h : wfFrom lo m = true) (ha : a < lo) : read m a = background a := by
  cases m with
  | nil => rfl
  | cons kc m =>
    obtain ⟨k, c⟩ := kc
    simp only [wfFrom, Bool.and_eq_true, decide_eq_true_eq] at h
    have h1 : a ≠ k := by omega
    have h2 : a < k := by omega
    simp [read, h1, h2]

/-- A canonical memory stays one with a lower bound on its addresses. -/
theorem wfFrom_mono {m : Memory} {lo lo' : Nat} (h : wfFrom lo m = true) (hl : lo' ≤ lo) : wfFrom lo' m = true := by
  cases m with
  | nil => rfl
  | cons kc m =>
    obtain ⟨k, c⟩ := kc
    simp only [wfFrom, Bool.and_eq_true, decide_eq_true_eq] at h ⊢
    exact ⟨⟨by omega, h.1.2⟩, h.2⟩

/-- Reading a memory to which one cell may have been added in front. -/
theorem read_consCell {m : Memory} {a : Nat} {b : Byte} (h : wfFrom (a + 1) m = true) (j : Nat) :
    read (consCell a b m) j = if j = a then b else read m j := by
  unfold consCell
  split
  case isTrue hb =>
    split
    case isTrue hj => rw [hj, hb]; exact read_below h (Nat.lt_succ_self a)
    case isFalse => rfl
  case isFalse =>
    by_cases hj : j = a
    · simp [read, hj]
    · by_cases hlt : j < a
      · simp [read, hj, hlt, read_below h (Nat.lt_succ_of_lt hlt)]
      · simp [read, hj, hlt]

/-- A cell added in front of a canonical memory leaves it canonical. -/
theorem wfFrom_consCell {m : Memory} {lo a : Nat} {b : Byte} (h : wfFrom (a + 1) m = true) (hlo : lo ≤ a)
    (ha : a < memSize) : wfFrom lo (consCell a b m) = true := by
  unfold consCell
  split
  case isTrue => exact wfFrom_mono h (by omega)
  case isFalse hb => simp [wfFrom, hlo, ha, hb, h]

/-- A read after a write, at the written index and everywhere else (R75, R80). -/
theorem read_write {m : Memory} {lo : Nat} (h : wfFrom lo m = true) (a : Nat) (b : Byte) (j : Nat) :
    read (write m a b) j = if j = a then b else read m j := by
  induction m generalizing lo with
  | nil =>
    simp only [write]
    exact read_consCell rfl j
  | cons kc m ih =>
    obtain ⟨k, c⟩ := kc
    have h' := h
    simp only [wfFrom, Bool.and_eq_true, decide_eq_true_eq] at h
    simp only [write]
    split
    case isTrue hak =>
      subst hak
      rw [read_consCell h.2]
      by_cases hj : j = a
      · simp [hj]
      · by_cases hlt : j < a
        · simp [read, hj, hlt, read_below h.2 (Nat.lt_succ_of_lt hlt)]
        · simp [read, hj, hlt]
    case isFalse hak =>
      split
      case isTrue hlt =>
        apply read_consCell
        simp only [wfFrom, Bool.and_eq_true, decide_eq_true_eq]
        exact ⟨⟨by omega, h.1.2⟩, h.2⟩
      case isFalse hlt =>
        have := ih h.2
        by_cases hj : j = a
        · subst hj; simp [read, hak, hlt, this]
        · simp [read, hj, this]

/-- A write within memory keeps the canonical form. -/
theorem wfFrom_write {m : Memory} {lo a : Nat} {b : Byte} (h : wfFrom lo m = true) (hlo : lo ≤ a) (ha : a < memSize) :
    wfFrom lo (write m a b) = true := by
  induction m generalizing lo with
  | nil => exact wfFrom_consCell rfl hlo ha
  | cons kc m ih =>
    obtain ⟨k, c⟩ := kc
    have h' := h
    simp only [wfFrom, Bool.and_eq_true, decide_eq_true_eq] at h
    simp only [write]
    split
    case isTrue hak => exact wfFrom_consCell (by rw [hak]; exact h.2) hlo ha
    case isFalse hak =>
      split
      case isTrue hlt =>
        apply wfFrom_consCell _ hlo ha
        simp only [wfFrom, Bool.and_eq_true, decide_eq_true_eq]
        exact ⟨⟨by omega, h.1.2⟩, h.2⟩
      case isFalse hlt =>
        simp only [wfFrom, Bool.and_eq_true, decide_eq_true_eq]
        exact ⟨h.1, ih h.2 (by omega)⟩

theorem wf_write {m : Memory} {a : Nat} {b : Byte} (h : m.wf = true) (ha : a < memSize) : (m.write a b).wf = true :=
  wfFrom_write h (Nat.zero_le a) ha

theorem read_write_same {m : Memory} (h : m.wf = true) (a : Nat) (b : Byte) : (m.write a b).read a = b := by
  rw [read_write h]; simp

theorem read_write_ne {m : Memory} (h : m.wf = true) {a j : Nat} (b : Byte) (hj : j ≠ a) :
    (m.write a b).read j = m.read j := by
  rw [read_write h]; simp [hj]

/-- Two canonical memories that read alike list the same cells. -/
theorem eq_of_read_eq {m m' : Memory} {lo : Nat} (h : wfFrom lo m = true) (h' : wfFrom lo m' = true)
    (hr : ∀ a, read m a = read m' a) : m = m' := by
  induction m generalizing lo m' with
  | nil =>
    cases m' with
    | nil => rfl
    | cons kc m' =>
      obtain ⟨k, c⟩ := kc
      simp only [wfFrom, Bool.and_eq_true, decide_eq_true_eq] at h'
      have := hr k
      simp only [read, if_true] at this
      exact absurd this.symm h'.1.2.2
  | cons kc m ih =>
    obtain ⟨k, c⟩ := kc
    have hw := h
    simp only [wfFrom, Bool.and_eq_true, decide_eq_true_eq] at h
    cases m' with
    | nil =>
      have := hr k
      simp only [read, if_true] at this
      exact absurd this h.1.2.2
    | cons kc' m' =>
      obtain ⟨k', c'⟩ := kc'
      have hw' := h'
      simp only [wfFrom, Bool.and_eq_true, decide_eq_true_eq] at h'
      have hk : k = k' := by
        by_contra hne
        rcases Nat.lt_or_gt_of_ne hne with hlt | hlt
        · have := hr k
          simp only [read, if_true, hne, hlt, if_false] at this
          exact h.1.2.2 this
        · have := hr k'
          have hne' : ¬k' = k := fun e => hne e.symm
          simp only [read, if_true, hne', hlt, if_false] at this
          exact h'.1.2.2 this.symm
      subst hk
      have hc : c = c' := by simpa [read] using hr k
      subst hc
      rw [ih h.2 h'.2]
      intro a
      have := hr a
      simp only [read] at this
      by_cases ha : a = k
      · rw [read_below h.2 (by omega), read_below h'.2 (by omega)]
      · by_cases hlt : a < k
        · rw [read_below h.2 (by omega), read_below h'.2 (by omega)]
        · simpa [ha, hlt] using this

/-- Bytes copied in keep the canonical form. -/
theorem wf_copyIn {m : Memory} (h : m.wf = true) (a : Nat) (bs : List Byte) : (copyIn m a bs).wf = true := by
  induction bs generalizing m a with
  | nil => exact h
  | cons b bs ih =>
    simp only [copyIn]
    split
    case isTrue ha => exact ih (wf_write h ha) (a + 1)
    case isFalse => exact h

/-- What memory reads after bytes are copied in: the bytes that fit below 4096, and the old contents elsewhere (R362). -/
theorem read_copyIn {m : Memory} (h : m.wf = true) (a : Nat) (bs : List Byte) (j : Nat) :
    (copyIn m a bs).read j =
      if a ≤ j ∧ j < a + bs.length ∧ j < memSize then bs.getD (j - a) 0 else m.read j := by
  induction bs generalizing m a with
  | nil => simp [copyIn, show ¬(a ≤ j ∧ j < a ∧ j < memSize) by omega]
  | cons b bs ih =>
    simp only [copyIn, List.length_cons]
    by_cases ha : a < memSize
    · rw [if_pos ha, ih (wf_write h ha), read_write h]
      by_cases hj : j = a
      · subst hj; simp [ha]
      · by_cases hin : a + 1 ≤ j ∧ j < a + 1 + bs.length ∧ j < memSize
        · rw [if_pos hin, if_pos (by omega)]
          have : j - a = (j - (a + 1)) + 1 := by omega
          rw [this, List.getD_cons_succ]
        · rw [if_neg hin, if_neg hj, if_neg (by omega)]
    · rw [if_neg ha, if_neg (by omega)]

end Sys2Proof.Machine.Memory
end

