-- ==== Sys2Proof/Laws/State.lean ====
section
/-! SUPPORT. One lemma per field per named update of State, each true by `rfl`, and the register file seen through each
update; so no later proof unfolds a record update. -/

namespace Sys2Proof.Machine.State

variable (s : State)

/-! ### setReg -/

@[simp] theorem setReg_v (r : RegIx) (b : Byte) : (s.setReg r b).v = s.v.set r.val b := rfl
@[simp] theorem setReg_i (r : RegIx) (b : Byte) : (s.setReg r b).i = s.i := rfl
@[simp] theorem setReg_pc (r : RegIx) (b : Byte) : (s.setReg r b).pc = s.pc := rfl
@[simp] theorem setReg_sp (r : RegIx) (b : Byte) : (s.setReg r b).sp = s.sp := rfl
@[simp] theorem setReg_stack (r : RegIx) (b : Byte) : (s.setReg r b).stack = s.stack := rfl
@[simp] theorem setReg_dt (r : RegIx) (b : Byte) : (s.setReg r b).dt = s.dt := rfl
@[simp] theorem setReg_st (r : RegIx) (b : Byte) : (s.setReg r b).st = s.st := rfl
@[simp] theorem setReg_mem (r : RegIx) (b : Byte) : (s.setReg r b).mem = s.mem := rfl
@[simp] theorem setReg_fb (r : RegIx) (b : Byte) : (s.setReg r b).fb = s.fb := rfl
@[simp] theorem setReg_hires (r : RegIx) (b : Byte) : (s.setReg r b).hires = s.hires := rfl
@[simp] theorem setReg_key (r : RegIx) (b : Byte) : (s.setReg r b).key = s.key := rfl
@[simp] theorem setReg_awaiting (r : RegIx) (b : Byte) : (s.setReg r b).awaiting = s.awaiting := rfl
@[simp] theorem setReg_awaitReg (r : RegIx) (b : Byte) : (s.setReg r b).awaitReg = s.awaitReg := rfl
@[simp] theorem setReg_exit (r : RegIx) (b : Byte) : (s.setReg r b).exit = s.exit := rfl
@[simp] theorem setReg_fault (r : RegIx) (b : Byte) : (s.setReg r b).fault = s.fault := rfl
@[simp] theorem setReg_cycleCost (r : RegIx) (b : Byte) : (s.setReg r b).cycleCost = s.cycleCost := rfl
@[simp] theorem setReg_clkAcc (r : RegIx) (b : Byte) : (s.setReg r b).clkAcc = s.clkAcc := rfl
@[simp] theorem setReg_tmrAcc (r : RegIx) (b : Byte) : (s.setReg r b).tmrAcc = s.tmrAcc := rfl
@[simp] theorem setReg_legacyShift (r : RegIx) (b : Byte) : (s.setReg r b).legacyShift = s.legacyShift := rfl
@[simp] theorem setReg_legacyMemop (r : RegIx) (b : Byte) : (s.setReg r b).legacyMemop = s.legacyMemop := rfl
@[simp] theorem setReg_timingMode (r : RegIx) (b : Byte) : (s.setReg r b).timingMode = s.timingMode := rfl
@[simp] theorem setReg_cycleRate (r : RegIx) (b : Byte) : (s.setReg r b).cycleRate = s.cycleRate := rfl
@[simp] theorem setReg_params (r : RegIx) (b : Byte) : (s.setReg r b).params = s.params := rfl
@[simp] theorem setReg_randDraws (r : RegIx) (b : Byte) : (s.setReg r b).randDraws = s.randDraws := rfl

/-! ### setPc -/

@[simp] theorem setPc_v (p : Word) : (s.setPc p).v = s.v := rfl
@[simp] theorem setPc_i (p : Word) : (s.setPc p).i = s.i := rfl
@[simp] theorem setPc_pc (p : Word) : (s.setPc p).pc = p := rfl
@[simp] theorem setPc_sp (p : Word) : (s.setPc p).sp = s.sp := rfl
@[simp] theorem setPc_stack (p : Word) : (s.setPc p).stack = s.stack := rfl
@[simp] theorem setPc_dt (p : Word) : (s.setPc p).dt = s.dt := rfl
@[simp] theorem setPc_st (p : Word) : (s.setPc p).st = s.st := rfl
@[simp] theorem setPc_mem (p : Word) : (s.setPc p).mem = s.mem := rfl
@[simp] theorem setPc_fb (p : Word) : (s.setPc p).fb = s.fb := rfl
@[simp] theorem setPc_hires (p : Word) : (s.setPc p).hires = s.hires := rfl
@[simp] theorem setPc_key (p : Word) : (s.setPc p).key = s.key := rfl
@[simp] theorem setPc_awaiting (p : Word) : (s.setPc p).awaiting = s.awaiting := rfl
@[simp] theorem setPc_awaitReg (p : Word) : (s.setPc p).awaitReg = s.awaitReg := rfl
@[simp] theorem setPc_exit (p : Word) : (s.setPc p).exit = s.exit := rfl
@[simp] theorem setPc_fault (p : Word) : (s.setPc p).fault = s.fault := rfl
@[simp] theorem setPc_cycleCost (p : Word) : (s.setPc p).cycleCost = s.cycleCost := rfl
@[simp] theorem setPc_clkAcc (p : Word) : (s.setPc p).clkAcc = s.clkAcc := rfl
@[simp] theorem setPc_tmrAcc (p : Word) : (s.setPc p).tmrAcc = s.tmrAcc := rfl
@[simp] theorem setPc_legacyShift (p : Word) : (s.setPc p).legacyShift = s.legacyShift := rfl
@[simp] theorem setPc_legacyMemop (p : Word) : (s.setPc p).legacyMemop = s.legacyMemop := rfl
@[simp] theorem setPc_timingMode (p : Word) : (s.setPc p).timingMode = s.timingMode := rfl
@[simp] theorem setPc_cycleRate (p : Word) : (s.setPc p).cycleRate = s.cycleRate := rfl
@[simp] theorem setPc_params (p : Word) : (s.setPc p).params = s.params := rfl
@[simp] theorem setPc_randDraws (p : Word) : (s.setPc p).randDraws = s.randDraws := rfl
@[simp] theorem setPc_reg (p : Word) (r : RegIx) : (s.setPc p).reg r = s.reg r := rfl

/-! ### advance -/

@[simp] theorem advance_v : (s.advance).v = s.v := rfl
@[simp] theorem advance_i : (s.advance).i = s.i := rfl
@[simp] theorem advance_pc : (s.advance).pc = s.pc + 2 := rfl
@[simp] theorem advance_sp : (s.advance).sp = s.sp := rfl
@[simp] theorem advance_stack : (s.advance).stack = s.stack := rfl
@[simp] theorem advance_dt : (s.advance).dt = s.dt := rfl
@[simp] theorem advance_st : (s.advance).st = s.st := rfl
@[simp] theorem advance_mem : (s.advance).mem = s.mem := rfl
@[simp] theorem advance_fb : (s.advance).fb = s.fb := rfl
@[simp] theorem advance_hires : (s.advance).hires = s.hires := rfl
@[simp] theorem advance_key : (s.advance).key = s.key := rfl
@[simp] theorem advance_awaiting : (s.advance).awaiting = s.awaiting := rfl
@[simp] theorem advance_awaitReg : (s.advance).awaitReg = s.awaitReg := rfl
@[simp] theorem advance_exit : (s.advance).exit = s.exit := rfl
@[simp] theorem advance_fault : (s.advance).fault = s.fault := rfl
@[simp] theorem advance_cycleCost : (s.advance).cycleCost = s.cycleCost := rfl
@[simp] theorem advance_clkAcc : (s.advance).clkAcc = s.clkAcc := rfl
@[simp] theorem advance_tmrAcc : (s.advance).tmrAcc = s.tmrAcc := rfl
@[simp] theorem advance_legacyShift : (s.advance).legacyShift = s.legacyShift := rfl
@[simp] theorem advance_legacyMemop : (s.advance).legacyMemop = s.legacyMemop := rfl
@[simp] theorem advance_timingMode : (s.advance).timingMode = s.timingMode := rfl
@[simp] theorem advance_cycleRate : (s.advance).cycleRate = s.cycleRate := rfl
@[simp] theorem advance_params : (s.advance).params = s.params := rfl
@[simp] theorem advance_randDraws : (s.advance).randDraws = s.randDraws := rfl
@[simp] theorem advance_reg (r : RegIx) : (s.advance).reg r = s.reg r := rfl

/-! ### setI -/

@[simp] theorem setI_v (a : Word) : (s.setI a).v = s.v := rfl
@[simp] theorem setI_i (a : Word) : (s.setI a).i = a := rfl
@[simp] theorem setI_pc (a : Word) : (s.setI a).pc = s.pc := rfl
@[simp] theorem setI_sp (a : Word) : (s.setI a).sp = s.sp := rfl
@[simp] theorem setI_stack (a : Word) : (s.setI a).stack = s.stack := rfl
@[simp] theorem setI_dt (a : Word) : (s.setI a).dt = s.dt := rfl
@[simp] theorem setI_st (a : Word) : (s.setI a).st = s.st := rfl
@[simp] theorem setI_mem (a : Word) : (s.setI a).mem = s.mem := rfl
@[simp] theorem setI_fb (a : Word) : (s.setI a).fb = s.fb := rfl
@[simp] theorem setI_hires (a : Word) : (s.setI a).hires = s.hires := rfl
@[simp] theorem setI_key (a : Word) : (s.setI a).key = s.key := rfl
@[simp] theorem setI_awaiting (a : Word) : (s.setI a).awaiting = s.awaiting := rfl
@[simp] theorem setI_awaitReg (a : Word) : (s.setI a).awaitReg = s.awaitReg := rfl
@[simp] theorem setI_exit (a : Word) : (s.setI a).exit = s.exit := rfl
@[simp] theorem setI_fault (a : Word) : (s.setI a).fault = s.fault := rfl
@[simp] theorem setI_cycleCost (a : Word) : (s.setI a).cycleCost = s.cycleCost := rfl
@[simp] theorem setI_clkAcc (a : Word) : (s.setI a).clkAcc = s.clkAcc := rfl
@[simp] theorem setI_tmrAcc (a : Word) : (s.setI a).tmrAcc = s.tmrAcc := rfl
@[simp] theorem setI_legacyShift (a : Word) : (s.setI a).legacyShift = s.legacyShift := rfl
@[simp] theorem setI_legacyMemop (a : Word) : (s.setI a).legacyMemop = s.legacyMemop := rfl
@[simp] theorem setI_timingMode (a : Word) : (s.setI a).timingMode = s.timingMode := rfl
@[simp] theorem setI_cycleRate (a : Word) : (s.setI a).cycleRate = s.cycleRate := rfl
@[simp] theorem setI_params (a : Word) : (s.setI a).params = s.params := rfl
@[simp] theorem setI_randDraws (a : Word) : (s.setI a).randDraws = s.randDraws := rfl
@[simp] theorem setI_reg (a : Word) (r : RegIx) : (s.setI a).reg r = s.reg r := rfl

/-! ### setDt -/

@[simp] theorem setDt_v (b : Byte) : (s.setDt b).v = s.v := rfl
@[simp] theorem setDt_i (b : Byte) : (s.setDt b).i = s.i := rfl
@[simp] theorem setDt_pc (b : Byte) : (s.setDt b).pc = s.pc := rfl
@[simp] theorem setDt_sp (b : Byte) : (s.setDt b).sp = s.sp := rfl
@[simp] theorem setDt_stack (b : Byte) : (s.setDt b).stack = s.stack := rfl
@[simp] theorem setDt_dt (b : Byte) : (s.setDt b).dt = b := rfl
@[simp] theorem setDt_st (b : Byte) : (s.setDt b).st = s.st := rfl
@[simp] theorem setDt_mem (b : Byte) : (s.setDt b).mem = s.mem := rfl
@[simp] theorem setDt_fb (b : Byte) : (s.setDt b).fb = s.fb := rfl
@[simp] theorem setDt_hires (b : Byte) : (s.setDt b).hires = s.hires := rfl
@[simp] theorem setDt_key (b : Byte) : (s.setDt b).key = s.key := rfl
@[simp] theorem setDt_awaiting (b : Byte) : (s.setDt b).awaiting = s.awaiting := rfl
@[simp] theorem setDt_awaitReg (b : Byte) : (s.setDt b).awaitReg = s.awaitReg := rfl
@[simp] theorem setDt_exit (b : Byte) : (s.setDt b).exit = s.exit := rfl
@[simp] theorem setDt_fault (b : Byte) : (s.setDt b).fault = s.fault := rfl
@[simp] theorem setDt_cycleCost (b : Byte) : (s.setDt b).cycleCost = s.cycleCost := rfl
@[simp] theorem setDt_clkAcc (b : Byte) : (s.setDt b).clkAcc = s.clkAcc := rfl
@[simp] theorem setDt_tmrAcc (b : Byte) : (s.setDt b).tmrAcc = s.tmrAcc := rfl
@[simp] theorem setDt_legacyShift (b : Byte) : (s.setDt b).legacyShift = s.legacyShift := rfl
@[simp] theorem setDt_legacyMemop (b : Byte) : (s.setDt b).legacyMemop = s.legacyMemop := rfl
@[simp] theorem setDt_timingMode (b : Byte) : (s.setDt b).timingMode = s.timingMode := rfl
@[simp] theorem setDt_cycleRate (b : Byte) : (s.setDt b).cycleRate = s.cycleRate := rfl
@[simp] theorem setDt_params (b : Byte) : (s.setDt b).params = s.params := rfl
@[simp] theorem setDt_randDraws (b : Byte) : (s.setDt b).randDraws = s.randDraws := rfl
@[simp] theorem setDt_reg (b : Byte) (r : RegIx) : (s.setDt b).reg r = s.reg r := rfl

/-! ### setSt -/

@[simp] theorem setSt_v (b : Byte) : (s.setSt b).v = s.v := rfl
@[simp] theorem setSt_i (b : Byte) : (s.setSt b).i = s.i := rfl
@[simp] theorem setSt_pc (b : Byte) : (s.setSt b).pc = s.pc := rfl
@[simp] theorem setSt_sp (b : Byte) : (s.setSt b).sp = s.sp := rfl
@[simp] theorem setSt_stack (b : Byte) : (s.setSt b).stack = s.stack := rfl
@[simp] theorem setSt_dt (b : Byte) : (s.setSt b).dt = s.dt := rfl
@[simp] theorem setSt_st (b : Byte) : (s.setSt b).st = b := rfl
@[simp] theorem setSt_mem (b : Byte) : (s.setSt b).mem = s.mem := rfl
@[simp] theorem setSt_fb (b : Byte) : (s.setSt b).fb = s.fb := rfl
@[simp] theorem setSt_hires (b : Byte) : (s.setSt b).hires = s.hires := rfl
@[simp] theorem setSt_key (b : Byte) : (s.setSt b).key = s.key := rfl
@[simp] theorem setSt_awaiting (b : Byte) : (s.setSt b).awaiting = s.awaiting := rfl
@[simp] theorem setSt_awaitReg (b : Byte) : (s.setSt b).awaitReg = s.awaitReg := rfl
@[simp] theorem setSt_exit (b : Byte) : (s.setSt b).exit = s.exit := rfl
@[simp] theorem setSt_fault (b : Byte) : (s.setSt b).fault = s.fault := rfl
@[simp] theorem setSt_cycleCost (b : Byte) : (s.setSt b).cycleCost = s.cycleCost := rfl
@[simp] theorem setSt_clkAcc (b : Byte) : (s.setSt b).clkAcc = s.clkAcc := rfl
@[simp] theorem setSt_tmrAcc (b : Byte) : (s.setSt b).tmrAcc = s.tmrAcc := rfl
@[simp] theorem setSt_legacyShift (b : Byte) : (s.setSt b).legacyShift = s.legacyShift := rfl
@[simp] theorem setSt_legacyMemop (b : Byte) : (s.setSt b).legacyMemop = s.legacyMemop := rfl
@[simp] theorem setSt_timingMode (b : Byte) : (s.setSt b).timingMode = s.timingMode := rfl
@[simp] theorem setSt_cycleRate (b : Byte) : (s.setSt b).cycleRate = s.cycleRate := rfl
@[simp] theorem setSt_params (b : Byte) : (s.setSt b).params = s.params := rfl
@[simp] theorem setSt_randDraws (b : Byte) : (s.setSt b).randDraws = s.randDraws := rfl
@[simp] theorem setSt_reg (b : Byte) (r : RegIx) : (s.setSt b).reg r = s.reg r := rfl

/-! ### setMem -/

@[simp] theorem setMem_v (m : Memory) : (s.setMem m).v = s.v := rfl
@[simp] theorem setMem_i (m : Memory) : (s.setMem m).i = s.i := rfl
@[simp] theorem setMem_pc (m : Memory) : (s.setMem m).pc = s.pc := rfl
@[simp] theorem setMem_sp (m : Memory) : (s.setMem m).sp = s.sp := rfl
@[simp] theorem setMem_stack (m : Memory) : (s.setMem m).stack = s.stack := rfl
@[simp] theorem setMem_dt (m : Memory) : (s.setMem m).dt = s.dt := rfl
@[simp] theorem setMem_st (m : Memory) : (s.setMem m).st = s.st := rfl
@[simp] theorem setMem_mem (m : Memory) : (s.setMem m).mem = m := rfl
@[simp] theorem setMem_fb (m : Memory) : (s.setMem m).fb = s.fb := rfl
@[simp] theorem setMem_hires (m : Memory) : (s.setMem m).hires = s.hires := rfl
@[simp] theorem setMem_key (m : Memory) : (s.setMem m).key = s.key := rfl
@[simp] theorem setMem_awaiting (m : Memory) : (s.setMem m).awaiting = s.awaiting := rfl
@[simp] theorem setMem_awaitReg (m : Memory) : (s.setMem m).awaitReg = s.awaitReg := rfl
@[simp] theorem setMem_exit (m : Memory) : (s.setMem m).exit = s.exit := rfl
@[simp] theorem setMem_fault (m : Memory) : (s.setMem m).fault = s.fault := rfl
@[simp] theorem setMem_cycleCost (m : Memory) : (s.setMem m).cycleCost = s.cycleCost := rfl
@[simp] theorem setMem_clkAcc (m : Memory) : (s.setMem m).clkAcc = s.clkAcc := rfl
@[simp] theorem setMem_tmrAcc (m : Memory) : (s.setMem m).tmrAcc = s.tmrAcc := rfl
@[simp] theorem setMem_legacyShift (m : Memory) : (s.setMem m).legacyShift = s.legacyShift := rfl
@[simp] theorem setMem_legacyMemop (m : Memory) : (s.setMem m).legacyMemop = s.legacyMemop := rfl
@[simp] theorem setMem_timingMode (m : Memory) : (s.setMem m).timingMode = s.timingMode := rfl
@[simp] theorem setMem_cycleRate (m : Memory) : (s.setMem m).cycleRate = s.cycleRate := rfl
@[simp] theorem setMem_params (m : Memory) : (s.setMem m).params = s.params := rfl
@[simp] theorem setMem_randDraws (m : Memory) : (s.setMem m).randDraws = s.randDraws := rfl
@[simp] theorem setMem_reg (m : Memory) (r : RegIx) : (s.setMem m).reg r = s.reg r := rfl

/-! ### setFb -/

@[simp] theorem setFb_v (f : Framebuffer) : (s.setFb f).v = s.v := rfl
@[simp] theorem setFb_i (f : Framebuffer) : (s.setFb f).i = s.i := rfl
@[simp] theorem setFb_pc (f : Framebuffer) : (s.setFb f).pc = s.pc := rfl
@[simp] theorem setFb_sp (f : Framebuffer) : (s.setFb f).sp = s.sp := rfl
@[simp] theorem setFb_stack (f : Framebuffer) : (s.setFb f).stack = s.stack := rfl
@[simp] theorem setFb_dt (f : Framebuffer) : (s.setFb f).dt = s.dt := rfl
@[simp] theorem setFb_st (f : Framebuffer) : (s.setFb f).st = s.st := rfl
@[simp] theorem setFb_mem (f : Framebuffer) : (s.setFb f).mem = s.mem := rfl
@[simp] theorem setFb_fb (f : Framebuffer) : (s.setFb f).fb = f := rfl
@[simp] theorem setFb_hires (f : Framebuffer) : (s.setFb f).hires = s.hires := rfl
@[simp] theorem setFb_key (f : Framebuffer) : (s.setFb f).key = s.key := rfl
@[simp] theorem setFb_awaiting (f : Framebuffer) : (s.setFb f).awaiting = s.awaiting := rfl
@[simp] theorem setFb_awaitReg (f : Framebuffer) : (s.setFb f).awaitReg = s.awaitReg := rfl
@[simp] theorem setFb_exit (f : Framebuffer) : (s.setFb f).exit = s.exit := rfl
@[simp] theorem setFb_fault (f : Framebuffer) : (s.setFb f).fault = s.fault := rfl
@[simp] theorem setFb_cycleCost (f : Framebuffer) : (s.setFb f).cycleCost = s.cycleCost := rfl
@[simp] theorem setFb_clkAcc (f : Framebuffer) : (s.setFb f).clkAcc = s.clkAcc := rfl
@[simp] theorem setFb_tmrAcc (f : Framebuffer) : (s.setFb f).tmrAcc = s.tmrAcc := rfl
@[simp] theorem setFb_legacyShift (f : Framebuffer) : (s.setFb f).legacyShift = s.legacyShift := rfl
@[simp] theorem setFb_legacyMemop (f : Framebuffer) : (s.setFb f).legacyMemop = s.legacyMemop := rfl
@[simp] theorem setFb_timingMode (f : Framebuffer) : (s.setFb f).timingMode = s.timingMode := rfl
@[simp] theorem setFb_cycleRate (f : Framebuffer) : (s.setFb f).cycleRate = s.cycleRate := rfl
@[simp] theorem setFb_params (f : Framebuffer) : (s.setFb f).params = s.params := rfl
@[simp] theorem setFb_randDraws (f : Framebuffer) : (s.setFb f).randDraws = s.randDraws := rfl
@[simp] theorem setFb_reg (f : Framebuffer) (r : RegIx) : (s.setFb f).reg r = s.reg r := rfl

/-! ### setHires -/

@[simp] theorem setHires_v (b : Bool) : (s.setHires b).v = s.v := rfl
@[simp] theorem setHires_i (b : Bool) : (s.setHires b).i = s.i := rfl
@[simp] theorem setHires_pc (b : Bool) : (s.setHires b).pc = s.pc := rfl
@[simp] theorem setHires_sp (b : Bool) : (s.setHires b).sp = s.sp := rfl
@[simp] theorem setHires_stack (b : Bool) : (s.setHires b).stack = s.stack := rfl
@[simp] theorem setHires_dt (b : Bool) : (s.setHires b).dt = s.dt := rfl
@[simp] theorem setHires_st (b : Bool) : (s.setHires b).st = s.st := rfl
@[simp] theorem setHires_mem (b : Bool) : (s.setHires b).mem = s.mem := rfl
@[simp] theorem setHires_fb (b : Bool) : (s.setHires b).fb = s.fb := rfl
@[simp] theorem setHires_hires (b : Bool) : (s.setHires b).hires = b := rfl
@[simp] theorem setHires_key (b : Bool) : (s.setHires b).key = s.key := rfl
@[simp] theorem setHires_awaiting (b : Bool) : (s.setHires b).awaiting = s.awaiting := rfl
@[simp] theorem setHires_awaitReg (b : Bool) : (s.setHires b).awaitReg = s.awaitReg := rfl
@[simp] theorem setHires_exit (b : Bool) : (s.setHires b).exit = s.exit := rfl
@[simp] theorem setHires_fault (b : Bool) : (s.setHires b).fault = s.fault := rfl
@[simp] theorem setHires_cycleCost (b : Bool) : (s.setHires b).cycleCost = s.cycleCost := rfl
@[simp] theorem setHires_clkAcc (b : Bool) : (s.setHires b).clkAcc = s.clkAcc := rfl
@[simp] theorem setHires_tmrAcc (b : Bool) : (s.setHires b).tmrAcc = s.tmrAcc := rfl
@[simp] theorem setHires_legacyShift (b : Bool) : (s.setHires b).legacyShift = s.legacyShift := rfl
@[simp] theorem setHires_legacyMemop (b : Bool) : (s.setHires b).legacyMemop = s.legacyMemop := rfl
@[simp] theorem setHires_timingMode (b : Bool) : (s.setHires b).timingMode = s.timingMode := rfl
@[simp] theorem setHires_cycleRate (b : Bool) : (s.setHires b).cycleRate = s.cycleRate := rfl
@[simp] theorem setHires_params (b : Bool) : (s.setHires b).params = s.params := rfl
@[simp] theorem setHires_randDraws (b : Bool) : (s.setHires b).randDraws = s.randDraws := rfl
@[simp] theorem setHires_reg (b : Bool) (r : RegIx) : (s.setHires b).reg r = s.reg r := rfl

/-! ### setKey -/

@[simp] theorem setKey_v (k : RegIx) (b : Bool) : (s.setKey k b).v = s.v := rfl
@[simp] theorem setKey_i (k : RegIx) (b : Bool) : (s.setKey k b).i = s.i := rfl
@[simp] theorem setKey_pc (k : RegIx) (b : Bool) : (s.setKey k b).pc = s.pc := rfl
@[simp] theorem setKey_sp (k : RegIx) (b : Bool) : (s.setKey k b).sp = s.sp := rfl
@[simp] theorem setKey_stack (k : RegIx) (b : Bool) : (s.setKey k b).stack = s.stack := rfl
@[simp] theorem setKey_dt (k : RegIx) (b : Bool) : (s.setKey k b).dt = s.dt := rfl
@[simp] theorem setKey_st (k : RegIx) (b : Bool) : (s.setKey k b).st = s.st := rfl
@[simp] theorem setKey_mem (k : RegIx) (b : Bool) : (s.setKey k b).mem = s.mem := rfl
@[simp] theorem setKey_fb (k : RegIx) (b : Bool) : (s.setKey k b).fb = s.fb := rfl
@[simp] theorem setKey_hires (k : RegIx) (b : Bool) : (s.setKey k b).hires = s.hires := rfl
@[simp] theorem setKey_key (k : RegIx) (b : Bool) : (s.setKey k b).key = s.key.set k.val b := rfl
@[simp] theorem setKey_awaiting (k : RegIx) (b : Bool) : (s.setKey k b).awaiting = s.awaiting := rfl
@[simp] theorem setKey_awaitReg (k : RegIx) (b : Bool) : (s.setKey k b).awaitReg = s.awaitReg := rfl
@[simp] theorem setKey_exit (k : RegIx) (b : Bool) : (s.setKey k b).exit = s.exit := rfl
@[simp] theorem setKey_fault (k : RegIx) (b : Bool) : (s.setKey k b).fault = s.fault := rfl
@[simp] theorem setKey_cycleCost (k : RegIx) (b : Bool) : (s.setKey k b).cycleCost = s.cycleCost := rfl
@[simp] theorem setKey_clkAcc (k : RegIx) (b : Bool) : (s.setKey k b).clkAcc = s.clkAcc := rfl
@[simp] theorem setKey_tmrAcc (k : RegIx) (b : Bool) : (s.setKey k b).tmrAcc = s.tmrAcc := rfl
@[simp] theorem setKey_legacyShift (k : RegIx) (b : Bool) : (s.setKey k b).legacyShift = s.legacyShift := rfl
@[simp] theorem setKey_legacyMemop (k : RegIx) (b : Bool) : (s.setKey k b).legacyMemop = s.legacyMemop := rfl
@[simp] theorem setKey_timingMode (k : RegIx) (b : Bool) : (s.setKey k b).timingMode = s.timingMode := rfl
@[simp] theorem setKey_cycleRate (k : RegIx) (b : Bool) : (s.setKey k b).cycleRate = s.cycleRate := rfl
@[simp] theorem setKey_params (k : RegIx) (b : Bool) : (s.setKey k b).params = s.params := rfl
@[simp] theorem setKey_randDraws (k : RegIx) (b : Bool) : (s.setKey k b).randDraws = s.randDraws := rfl
@[simp] theorem setKey_reg (k : RegIx) (b : Bool) (r : RegIx) : (s.setKey k b).reg r = s.reg r := rfl

/-! ### beginWait -/

@[simp] theorem beginWait_v (r : RegIx) : (s.beginWait r).v = s.v := rfl
@[simp] theorem beginWait_i (r : RegIx) : (s.beginWait r).i = s.i := rfl
@[simp] theorem beginWait_pc (r : RegIx) : (s.beginWait r).pc = s.pc := rfl
@[simp] theorem beginWait_sp (r : RegIx) : (s.beginWait r).sp = s.sp := rfl
@[simp] theorem beginWait_stack (r : RegIx) : (s.beginWait r).stack = s.stack := rfl
@[simp] theorem beginWait_dt (r : RegIx) : (s.beginWait r).dt = s.dt := rfl
@[simp] theorem beginWait_st (r : RegIx) : (s.beginWait r).st = s.st := rfl
@[simp] theorem beginWait_mem (r : RegIx) : (s.beginWait r).mem = s.mem := rfl
@[simp] theorem beginWait_fb (r : RegIx) : (s.beginWait r).fb = s.fb := rfl
@[simp] theorem beginWait_hires (r : RegIx) : (s.beginWait r).hires = s.hires := rfl
@[simp] theorem beginWait_key (r : RegIx) : (s.beginWait r).key = s.key := rfl
@[simp] theorem beginWait_awaiting (r : RegIx) : (s.beginWait r).awaiting = true := rfl
@[simp] theorem beginWait_awaitReg (r : RegIx) : (s.beginWait r).awaitReg = r := rfl
@[simp] theorem beginWait_exit (r : RegIx) : (s.beginWait r).exit = s.exit := rfl
@[simp] theorem beginWait_fault (r : RegIx) : (s.beginWait r).fault = s.fault := rfl
@[simp] theorem beginWait_cycleCost (r : RegIx) : (s.beginWait r).cycleCost = s.cycleCost := rfl
@[simp] theorem beginWait_clkAcc (r : RegIx) : (s.beginWait r).clkAcc = s.clkAcc := rfl
@[simp] theorem beginWait_tmrAcc (r : RegIx) : (s.beginWait r).tmrAcc = s.tmrAcc := rfl
@[simp] theorem beginWait_legacyShift (r : RegIx) : (s.beginWait r).legacyShift = s.legacyShift := rfl
@[simp] theorem beginWait_legacyMemop (r : RegIx) : (s.beginWait r).legacyMemop = s.legacyMemop := rfl
@[simp] theorem beginWait_timingMode (r : RegIx) : (s.beginWait r).timingMode = s.timingMode := rfl
@[simp] theorem beginWait_cycleRate (r : RegIx) : (s.beginWait r).cycleRate = s.cycleRate := rfl
@[simp] theorem beginWait_params (r : RegIx) : (s.beginWait r).params = s.params := rfl
@[simp] theorem beginWait_randDraws (r : RegIx) : (s.beginWait r).randDraws = s.randDraws := rfl
@[simp] theorem beginWait_reg (q : RegIx) (r : RegIx) : (s.beginWait q).reg r = s.reg r := rfl

/-! ### endWait -/

@[simp] theorem endWait_v : (s.endWait).v = s.v := rfl
@[simp] theorem endWait_i : (s.endWait).i = s.i := rfl
@[simp] theorem endWait_pc : (s.endWait).pc = s.pc := rfl
@[simp] theorem endWait_sp : (s.endWait).sp = s.sp := rfl
@[simp] theorem endWait_stack : (s.endWait).stack = s.stack := rfl
@[simp] theorem endWait_dt : (s.endWait).dt = s.dt := rfl
@[simp] theorem endWait_st : (s.endWait).st = s.st := rfl
@[simp] theorem endWait_mem : (s.endWait).mem = s.mem := rfl
@[simp] theorem endWait_fb : (s.endWait).fb = s.fb := rfl
@[simp] theorem endWait_hires : (s.endWait).hires = s.hires := rfl
@[simp] theorem endWait_key : (s.endWait).key = s.key := rfl
@[simp] theorem endWait_awaiting : (s.endWait).awaiting = false := rfl
@[simp] theorem endWait_awaitReg : (s.endWait).awaitReg = s.awaitReg := rfl
@[simp] theorem endWait_exit : (s.endWait).exit = s.exit := rfl
@[simp] theorem endWait_fault : (s.endWait).fault = s.fault := rfl
@[simp] theorem endWait_cycleCost : (s.endWait).cycleCost = s.cycleCost := rfl
@[simp] theorem endWait_clkAcc : (s.endWait).clkAcc = s.clkAcc := rfl
@[simp] theorem endWait_tmrAcc : (s.endWait).tmrAcc = s.tmrAcc := rfl
@[simp] theorem endWait_legacyShift : (s.endWait).legacyShift = s.legacyShift := rfl
@[simp] theorem endWait_legacyMemop : (s.endWait).legacyMemop = s.legacyMemop := rfl
@[simp] theorem endWait_timingMode : (s.endWait).timingMode = s.timingMode := rfl
@[simp] theorem endWait_cycleRate : (s.endWait).cycleRate = s.cycleRate := rfl
@[simp] theorem endWait_params : (s.endWait).params = s.params := rfl
@[simp] theorem endWait_randDraws : (s.endWait).randDraws = s.randDraws := rfl
@[simp] theorem endWait_reg (r : RegIx) : (s.endWait).reg r = s.reg r := rfl

/-! ### setExit -/

@[simp] theorem setExit_v : (s.setExit).v = s.v := rfl
@[simp] theorem setExit_i : (s.setExit).i = s.i := rfl
@[simp] theorem setExit_pc : (s.setExit).pc = s.pc := rfl
@[simp] theorem setExit_sp : (s.setExit).sp = s.sp := rfl
@[simp] theorem setExit_stack : (s.setExit).stack = s.stack := rfl
@[simp] theorem setExit_dt : (s.setExit).dt = s.dt := rfl
@[simp] theorem setExit_st : (s.setExit).st = s.st := rfl
@[simp] theorem setExit_mem : (s.setExit).mem = s.mem := rfl
@[simp] theorem setExit_fb : (s.setExit).fb = s.fb := rfl
@[simp] theorem setExit_hires : (s.setExit).hires = s.hires := rfl
@[simp] theorem setExit_key : (s.setExit).key = s.key := rfl
@[simp] theorem setExit_awaiting : (s.setExit).awaiting = s.awaiting := rfl
@[simp] theorem setExit_awaitReg : (s.setExit).awaitReg = s.awaitReg := rfl
@[simp] theorem setExit_exit : (s.setExit).exit = true := rfl
@[simp] theorem setExit_fault : (s.setExit).fault = s.fault := rfl
@[simp] theorem setExit_cycleCost : (s.setExit).cycleCost = s.cycleCost := rfl
@[simp] theorem setExit_clkAcc : (s.setExit).clkAcc = s.clkAcc := rfl
@[simp] theorem setExit_tmrAcc : (s.setExit).tmrAcc = s.tmrAcc := rfl
@[simp] theorem setExit_legacyShift : (s.setExit).legacyShift = s.legacyShift := rfl
@[simp] theorem setExit_legacyMemop : (s.setExit).legacyMemop = s.legacyMemop := rfl
@[simp] theorem setExit_timingMode : (s.setExit).timingMode = s.timingMode := rfl
@[simp] theorem setExit_cycleRate : (s.setExit).cycleRate = s.cycleRate := rfl
@[simp] theorem setExit_params : (s.setExit).params = s.params := rfl
@[simp] theorem setExit_randDraws : (s.setExit).randDraws = s.randDraws := rfl
@[simp] theorem setExit_reg (r : RegIx) : (s.setExit).reg r = s.reg r := rfl

/-! ### setFault -/

@[simp] theorem setFault_v (c : FaultCode) : (s.setFault c).v = s.v := rfl
@[simp] theorem setFault_i (c : FaultCode) : (s.setFault c).i = s.i := rfl
@[simp] theorem setFault_pc (c : FaultCode) : (s.setFault c).pc = s.pc := rfl
@[simp] theorem setFault_sp (c : FaultCode) : (s.setFault c).sp = s.sp := rfl
@[simp] theorem setFault_stack (c : FaultCode) : (s.setFault c).stack = s.stack := rfl
@[simp] theorem setFault_dt (c : FaultCode) : (s.setFault c).dt = s.dt := rfl
@[simp] theorem setFault_st (c : FaultCode) : (s.setFault c).st = s.st := rfl
@[simp] theorem setFault_mem (c : FaultCode) : (s.setFault c).mem = s.mem := rfl
@[simp] theorem setFault_fb (c : FaultCode) : (s.setFault c).fb = s.fb := rfl
@[simp] theorem setFault_hires (c : FaultCode) : (s.setFault c).hires = s.hires := rfl
@[simp] theorem setFault_key (c : FaultCode) : (s.setFault c).key = s.key := rfl
@[simp] theorem setFault_awaiting (c : FaultCode) : (s.setFault c).awaiting = s.awaiting := rfl
@[simp] theorem setFault_awaitReg (c : FaultCode) : (s.setFault c).awaitReg = s.awaitReg := rfl
@[simp] theorem setFault_exit (c : FaultCode) : (s.setFault c).exit = s.exit := rfl
@[simp] theorem setFault_fault (c : FaultCode) : (s.setFault c).fault = c := rfl
@[simp] theorem setFault_cycleCost (c : FaultCode) : (s.setFault c).cycleCost = s.cycleCost := rfl
@[simp] theorem setFault_clkAcc (c : FaultCode) : (s.setFault c).clkAcc = s.clkAcc := rfl
@[simp] theorem setFault_tmrAcc (c : FaultCode) : (s.setFault c).tmrAcc = s.tmrAcc := rfl
@[simp] theorem setFault_legacyShift (c : FaultCode) : (s.setFault c).legacyShift = s.legacyShift := rfl
@[simp] theorem setFault_legacyMemop (c : FaultCode) : (s.setFault c).legacyMemop = s.legacyMemop := rfl
@[simp] theorem setFault_timingMode (c : FaultCode) : (s.setFault c).timingMode = s.timingMode := rfl
@[simp] theorem setFault_cycleRate (c : FaultCode) : (s.setFault c).cycleRate = s.cycleRate := rfl
@[simp] theorem setFault_params (c : FaultCode) : (s.setFault c).params = s.params := rfl
@[simp] theorem setFault_randDraws (c : FaultCode) : (s.setFault c).randDraws = s.randDraws := rfl
@[simp] theorem setFault_reg (c : FaultCode) (r : RegIx) : (s.setFault c).reg r = s.reg r := rfl

/-! ### setCycleCost -/

@[simp] theorem setCycleCost_v (n : Nat) : (s.setCycleCost n).v = s.v := rfl
@[simp] theorem setCycleCost_i (n : Nat) : (s.setCycleCost n).i = s.i := rfl
@[simp] theorem setCycleCost_pc (n : Nat) : (s.setCycleCost n).pc = s.pc := rfl
@[simp] theorem setCycleCost_sp (n : Nat) : (s.setCycleCost n).sp = s.sp := rfl
@[simp] theorem setCycleCost_stack (n : Nat) : (s.setCycleCost n).stack = s.stack := rfl
@[simp] theorem setCycleCost_dt (n : Nat) : (s.setCycleCost n).dt = s.dt := rfl
@[simp] theorem setCycleCost_st (n : Nat) : (s.setCycleCost n).st = s.st := rfl
@[simp] theorem setCycleCost_mem (n : Nat) : (s.setCycleCost n).mem = s.mem := rfl
@[simp] theorem setCycleCost_fb (n : Nat) : (s.setCycleCost n).fb = s.fb := rfl
@[simp] theorem setCycleCost_hires (n : Nat) : (s.setCycleCost n).hires = s.hires := rfl
@[simp] theorem setCycleCost_key (n : Nat) : (s.setCycleCost n).key = s.key := rfl
@[simp] theorem setCycleCost_awaiting (n : Nat) : (s.setCycleCost n).awaiting = s.awaiting := rfl
@[simp] theorem setCycleCost_awaitReg (n : Nat) : (s.setCycleCost n).awaitReg = s.awaitReg := rfl
@[simp] theorem setCycleCost_exit (n : Nat) : (s.setCycleCost n).exit = s.exit := rfl
@[simp] theorem setCycleCost_fault (n : Nat) : (s.setCycleCost n).fault = s.fault := rfl
@[simp] theorem setCycleCost_cycleCost (n : Nat) : (s.setCycleCost n).cycleCost = n := rfl
@[simp] theorem setCycleCost_clkAcc (n : Nat) : (s.setCycleCost n).clkAcc = s.clkAcc := rfl
@[simp] theorem setCycleCost_tmrAcc (n : Nat) : (s.setCycleCost n).tmrAcc = s.tmrAcc := rfl
@[simp] theorem setCycleCost_legacyShift (n : Nat) : (s.setCycleCost n).legacyShift = s.legacyShift := rfl
@[simp] theorem setCycleCost_legacyMemop (n : Nat) : (s.setCycleCost n).legacyMemop = s.legacyMemop := rfl
@[simp] theorem setCycleCost_timingMode (n : Nat) : (s.setCycleCost n).timingMode = s.timingMode := rfl
@[simp] theorem setCycleCost_cycleRate (n : Nat) : (s.setCycleCost n).cycleRate = s.cycleRate := rfl
@[simp] theorem setCycleCost_params (n : Nat) : (s.setCycleCost n).params = s.params := rfl
@[simp] theorem setCycleCost_randDraws (n : Nat) : (s.setCycleCost n).randDraws = s.randDraws := rfl
@[simp] theorem setCycleCost_reg (n : Nat) (r : RegIx) : (s.setCycleCost n).reg r = s.reg r := rfl

/-! ### setClkAcc -/

@[simp] theorem setClkAcc_v (q : Rat) : (s.setClkAcc q).v = s.v := rfl
@[simp] theorem setClkAcc_i (q : Rat) : (s.setClkAcc q).i = s.i := rfl
@[simp] theorem setClkAcc_pc (q : Rat) : (s.setClkAcc q).pc = s.pc := rfl
@[simp] theorem setClkAcc_sp (q : Rat) : (s.setClkAcc q).sp = s.sp := rfl
@[simp] theorem setClkAcc_stack (q : Rat) : (s.setClkAcc q).stack = s.stack := rfl
@[simp] theorem setClkAcc_dt (q : Rat) : (s.setClkAcc q).dt = s.dt := rfl
@[simp] theorem setClkAcc_st (q : Rat) : (s.setClkAcc q).st = s.st := rfl
@[simp] theorem setClkAcc_mem (q : Rat) : (s.setClkAcc q).mem = s.mem := rfl
@[simp] theorem setClkAcc_fb (q : Rat) : (s.setClkAcc q).fb = s.fb := rfl
@[simp] theorem setClkAcc_hires (q : Rat) : (s.setClkAcc q).hires = s.hires := rfl
@[simp] theorem setClkAcc_key (q : Rat) : (s.setClkAcc q).key = s.key := rfl
@[simp] theorem setClkAcc_awaiting (q : Rat) : (s.setClkAcc q).awaiting = s.awaiting := rfl
@[simp] theorem setClkAcc_awaitReg (q : Rat) : (s.setClkAcc q).awaitReg = s.awaitReg := rfl
@[simp] theorem setClkAcc_exit (q : Rat) : (s.setClkAcc q).exit = s.exit := rfl
@[simp] theorem setClkAcc_fault (q : Rat) : (s.setClkAcc q).fault = s.fault := rfl
@[simp] theorem setClkAcc_cycleCost (q : Rat) : (s.setClkAcc q).cycleCost = s.cycleCost := rfl
@[simp] theorem setClkAcc_clkAcc (q : Rat) : (s.setClkAcc q).clkAcc = q := rfl
@[simp] theorem setClkAcc_tmrAcc (q : Rat) : (s.setClkAcc q).tmrAcc = s.tmrAcc := rfl
@[simp] theorem setClkAcc_legacyShift (q : Rat) : (s.setClkAcc q).legacyShift = s.legacyShift := rfl
@[simp] theorem setClkAcc_legacyMemop (q : Rat) : (s.setClkAcc q).legacyMemop = s.legacyMemop := rfl
@[simp] theorem setClkAcc_timingMode (q : Rat) : (s.setClkAcc q).timingMode = s.timingMode := rfl
@[simp] theorem setClkAcc_cycleRate (q : Rat) : (s.setClkAcc q).cycleRate = s.cycleRate := rfl
@[simp] theorem setClkAcc_params (q : Rat) : (s.setClkAcc q).params = s.params := rfl
@[simp] theorem setClkAcc_randDraws (q : Rat) : (s.setClkAcc q).randDraws = s.randDraws := rfl
@[simp] theorem setClkAcc_reg (q : Rat) (r : RegIx) : (s.setClkAcc q).reg r = s.reg r := rfl

/-! ### setTmrAcc -/

@[simp] theorem setTmrAcc_v (q : Rat) : (s.setTmrAcc q).v = s.v := rfl
@[simp] theorem setTmrAcc_i (q : Rat) : (s.setTmrAcc q).i = s.i := rfl
@[simp] theorem setTmrAcc_pc (q : Rat) : (s.setTmrAcc q).pc = s.pc := rfl
@[simp] theorem setTmrAcc_sp (q : Rat) : (s.setTmrAcc q).sp = s.sp := rfl
@[simp] theorem setTmrAcc_stack (q : Rat) : (s.setTmrAcc q).stack = s.stack := rfl
@[simp] theorem setTmrAcc_dt (q : Rat) : (s.setTmrAcc q).dt = s.dt := rfl
@[simp] theorem setTmrAcc_st (q : Rat) : (s.setTmrAcc q).st = s.st := rfl
@[simp] theorem setTmrAcc_mem (q : Rat) : (s.setTmrAcc q).mem = s.mem := rfl
@[simp] theorem setTmrAcc_fb (q : Rat) : (s.setTmrAcc q).fb = s.fb := rfl
@[simp] theorem setTmrAcc_hires (q : Rat) : (s.setTmrAcc q).hires = s.hires := rfl
@[simp] theorem setTmrAcc_key (q : Rat) : (s.setTmrAcc q).key = s.key := rfl
@[simp] theorem setTmrAcc_awaiting (q : Rat) : (s.setTmrAcc q).awaiting = s.awaiting := rfl
@[simp] theorem setTmrAcc_awaitReg (q : Rat) : (s.setTmrAcc q).awaitReg = s.awaitReg := rfl
@[simp] theorem setTmrAcc_exit (q : Rat) : (s.setTmrAcc q).exit = s.exit := rfl
@[simp] theorem setTmrAcc_fault (q : Rat) : (s.setTmrAcc q).fault = s.fault := rfl
@[simp] theorem setTmrAcc_cycleCost (q : Rat) : (s.setTmrAcc q).cycleCost = s.cycleCost := rfl
@[simp] theorem setTmrAcc_clkAcc (q : Rat) : (s.setTmrAcc q).clkAcc = s.clkAcc := rfl
@[simp] theorem setTmrAcc_tmrAcc (q : Rat) : (s.setTmrAcc q).tmrAcc = q := rfl
@[simp] theorem setTmrAcc_legacyShift (q : Rat) : (s.setTmrAcc q).legacyShift = s.legacyShift := rfl
@[simp] theorem setTmrAcc_legacyMemop (q : Rat) : (s.setTmrAcc q).legacyMemop = s.legacyMemop := rfl
@[simp] theorem setTmrAcc_timingMode (q : Rat) : (s.setTmrAcc q).timingMode = s.timingMode := rfl
@[simp] theorem setTmrAcc_cycleRate (q : Rat) : (s.setTmrAcc q).cycleRate = s.cycleRate := rfl
@[simp] theorem setTmrAcc_params (q : Rat) : (s.setTmrAcc q).params = s.params := rfl
@[simp] theorem setTmrAcc_randDraws (q : Rat) : (s.setTmrAcc q).randDraws = s.randDraws := rfl
@[simp] theorem setTmrAcc_reg (q : Rat) (r : RegIx) : (s.setTmrAcc q).reg r = s.reg r := rfl

/-! ### countDraw -/

@[simp] theorem countDraw_v : (s.countDraw).v = s.v := rfl
@[simp] theorem countDraw_i : (s.countDraw).i = s.i := rfl
@[simp] theorem countDraw_pc : (s.countDraw).pc = s.pc := rfl
@[simp] theorem countDraw_sp : (s.countDraw).sp = s.sp := rfl
@[simp] theorem countDraw_stack : (s.countDraw).stack = s.stack := rfl
@[simp] theorem countDraw_dt : (s.countDraw).dt = s.dt := rfl
@[simp] theorem countDraw_st : (s.countDraw).st = s.st := rfl
@[simp] theorem countDraw_mem : (s.countDraw).mem = s.mem := rfl
@[simp] theorem countDraw_fb : (s.countDraw).fb = s.fb := rfl
@[simp] theorem countDraw_hires : (s.countDraw).hires = s.hires := rfl
@[simp] theorem countDraw_key : (s.countDraw).key = s.key := rfl
@[simp] theorem countDraw_awaiting : (s.countDraw).awaiting = s.awaiting := rfl
@[simp] theorem countDraw_awaitReg : (s.countDraw).awaitReg = s.awaitReg := rfl
@[simp] theorem countDraw_exit : (s.countDraw).exit = s.exit := rfl
@[simp] theorem countDraw_fault : (s.countDraw).fault = s.fault := rfl
@[simp] theorem countDraw_cycleCost : (s.countDraw).cycleCost = s.cycleCost := rfl
@[simp] theorem countDraw_clkAcc : (s.countDraw).clkAcc = s.clkAcc := rfl
@[simp] theorem countDraw_tmrAcc : (s.countDraw).tmrAcc = s.tmrAcc := rfl
@[simp] theorem countDraw_legacyShift : (s.countDraw).legacyShift = s.legacyShift := rfl
@[simp] theorem countDraw_legacyMemop : (s.countDraw).legacyMemop = s.legacyMemop := rfl
@[simp] theorem countDraw_timingMode : (s.countDraw).timingMode = s.timingMode := rfl
@[simp] theorem countDraw_cycleRate : (s.countDraw).cycleRate = s.cycleRate := rfl
@[simp] theorem countDraw_params : (s.countDraw).params = s.params := rfl
@[simp] theorem countDraw_randDraws : (s.countDraw).randDraws = s.randDraws + 1 := rfl
@[simp] theorem countDraw_reg (r : RegIx) : (s.countDraw).reg r = s.reg r := rfl

/-! ### The register file -/

theorem reg_eq (r : RegIx) : s.reg r = s.v[r.val] := rfl

/-- A register read after a register write (R11). -/
@[simp] theorem setReg_reg (x : RegIx) (b : Byte) (r : RegIx) : (s.setReg x b).reg r = if r = x then b else s.reg r := by
  simp only [reg_eq, setReg_v, Vector.getElem_set, Fin.ext_iff, eq_comm]

theorem setReg_reg_same (x : RegIx) (b : Byte) : (s.setReg x b).reg x = b := by simp

theorem setReg_reg_ne (x : RegIx) (b : Byte) (r : RegIx) (h : r ≠ x) : (s.setReg x b).reg r = s.reg r := by simp [h]

/-- Equal register files are equal register by register. -/
theorem v_ext {s t : State} (h : ∀ r, s.reg r = t.reg r) : s.v = t.v :=
  Vector.ext fun k hk => h ⟨k, hk⟩

/-- A key read after a key write. -/
@[simp] theorem setKey_keyDown (k : RegIx) (b : Bool) (j : RegIx) :
    (s.setKey k b).keyDown j = if j = k then b else s.keyDown j := by
  simp only [keyDown, setKey_key, Vector.getElem_set, Fin.ext_iff, eq_comm]

/-! ### Compound updates -/

@[simp] theorem setFlag_eq (b : Byte) : s.setFlag b = s.setReg vF b := rfl

@[simp] theorem recordFault_eq (f : Fault) : s.recordFault f = s.setFault (faultCode f) := rfl

/-- A skip writes pc alone: pc + 4 when taken, else pc + 2 (R143). -/
theorem skipIf_eq (b : Bool) : s.skipIf b = s.setPc (s.pc + if b then 4 else 2) := by cases b <;> rfl

/-- FX55 and FX65 write I alone beside their data: moved on with LEGACY_MEMOP (R244). -/
theorem afterMemop_eq (x : RegIx) : s.afterMemop x =
    s.setI (if s.legacyMemop then s.i + memopIncrement s.params.legacyMemopIncrement x else s.i) := by
  unfold afterMemop; split <;> rfl

end Sys2Proof.Machine.State
end

