-- ==== Sys2Proof/Laws/Ops.lean ====
section
/-! SUPPORT. One lemma per shared operation of Machine/Ops.lean and Machine/Operands.lean, saying once what it can do. -/

namespace Sys2Proof.Machine

open Sys2Proof.Config

/-! ### Addresses and single bytes -/

/-- An address that reaches memory reaches its residue modulo 4096, under either policy (R72). -/
theorem memIndex_ok {p : OobPolicy} {a j : Nat} (h : memIndex p a = .ok j) : j = a % memSize ∧ j < memSize := by
  unfold memIndex at h
  split at h
  · injection h with h; subst h; exact ⟨rfl, Nat.mod_lt _ (by decide)⟩
  · split at h
    case isTrue hlt => injection h with h; subst h; exact ⟨(Nat.mod_eq_of_lt hlt).symm, hlt⟩
    case isFalse => exact nomatch h

/-- A refused address is one of 4096 or more under REFUSE (R72). -/
theorem memIndex_error {p : OobPolicy} {a : Nat} {r : Refusal} (h : memIndex p a = .error r) :
    p = .refuse ∧ memSize ≤ a ∧ r = .addressOutOfRange a := by
  unfold memIndex at h
  split at h
  · exact nomatch h
  · split at h
    case isTrue => exact nomatch h
    case isFalse hlt => injection h with h; exact ⟨rfl, Nat.le_of_not_lt hlt, h.symm⟩

/-- The first address of a reachable range reaches memory, and the rest of the range is reachable. -/
theorem Reachable.head {s : State} {a n : Nat} (h : Reachable s a (n + 1)) :
    memIndex s.params.oobPolicy a = .ok (a % memSize) ∧ Reachable s (a + 1) n := by
  unfold Reachable at *
  cases hp : s.params.oobPolicy with
  | wrap => exact ⟨rfl, fun e => nomatch e⟩
  | refuse =>
    have h := h hp
    have hlt : a < memSize := by omega
    refine ⟨by simp [memIndex, hlt, Nat.mod_eq_of_lt hlt], fun _ => by omega⟩

/-- A single byte read: the byte at the address's index, or the refusal of the address (R11, R72). -/
theorem readByte_cases (s : State) (a : Nat) :
    (∃ j, memIndex s.params.oobPolicy a = .ok j ∧ s.readByte a = .ok (s.mem.read j)) ∨
    (s.params.oobPolicy = .refuse ∧ memSize ≤ a ∧ s.readByte a = .error (.addressOutOfRange a)) := by
  unfold State.readByte
  cases h : memIndex s.params.oobPolicy a with
  | ok j => exact .inl ⟨j, rfl, rfl⟩
  | error r => obtain ⟨h1, h2, h3⟩ := memIndex_error h; exact .inr ⟨h1, h2, by rw [h3]⟩

/-- A single byte write: memory alone changes, at the address's index, or the refusal of the address (R11, R72). -/
theorem writeByte_cases (s : State) (a : Nat) (b : Byte) :
    (∃ j, memIndex s.params.oobPolicy a = .ok j ∧ s.writeByte a b = .ok (s.setMem (s.mem.write j b))) ∨
    (s.params.oobPolicy = .refuse ∧ memSize ≤ a ∧ s.writeByte a b = .error (.addressOutOfRange a)) := by
  unfold State.writeByte
  cases h : memIndex s.params.oobPolicy a with
  | ok j => exact .inl ⟨j, rfl, rfl⟩
  | error r => obtain ⟨h1, h2, h3⟩ := memIndex_error h; exact .inr ⟨h1, h2, by rw [h3]⟩

/-! ### Blocks of bytes -/

/-- A reachable block is read whole, each byte at its address's residue modulo 4096. -/
theorem readBytes_reachable {s : State} {a n : Nat} (h : Reachable s a n) :
    s.readBytes a n = .ok ((List.range n).map fun k => s.mem.read ((a + k) % memSize)) := by
  induction n generalizing a with
  | zero => rfl
  | succ n ih =>
    obtain ⟨h0, h1⟩ := h.head
    have hr : s.readByte a = .ok (s.mem.read (a % memSize)) := by simp only [State.readByte, h0]
    simp only [State.readBytes, hr, ih h1]
    simp only [List.range_succ_eq_map, List.map_cons, List.map_map, Nat.add_zero]
    congr 3
    funext k
    simp [Nat.add_comm, Nat.add_left_comm]

/-- A block that is not reachable is refused at its first address of 4096 or more. -/
theorem readBytes_unreachable {s : State} {a n : Nat} (h : ¬Reachable s a n) :
    ∃ b, memSize ≤ b ∧ s.readBytes a n = .error (.addressOutOfRange b) := by
  induction n generalizing a with
  | zero => exact absurd (fun _ => Or.inr rfl) h
  | succ n ih =>
    have hp : s.params.oobPolicy = .refuse := by
      by_contra hne; exact h fun e => absurd e hne
    rcases readByte_cases s a with ⟨j, hj, hr⟩ | ⟨_, h2, h3⟩
    · have hlt : a < memSize := by
        have := memIndex_ok hj
        by_contra hge
        simp [memIndex, hp, hge] at hj
      have h' : ¬Reachable s (a + 1) n := by
        intro hr'
        rcases hr' hp with h1 | h1
        · exact h fun _ => .inl (by omega)
        · exact h fun _ => .inl (by omega)
      obtain ⟨b, hb, he⟩ := ih h'
      exact ⟨b, hb, by simp only [State.readBytes, hr, he]⟩
    · exact ⟨a, h2, by simp only [State.readBytes, h3]⟩

/-- Bytes stored at consecutive addresses, each taken modulo 4096. -/
def Memory.writeAll : Memory → Nat → List Byte → Memory
  | m, _, []      => m
  | m, a, b :: bs => Memory.writeAll (m.write (a % memSize) b) (a + 1) bs

/-- A reachable block is stored whole, and memory alone changes. -/
theorem writeBytes_reachable {s : State} {a : Nat} {bs : List Byte} (h : Reachable s a bs.length) :
    s.writeBytes a bs = .ok (s.setMem (s.mem.writeAll a bs)) := by
  induction bs generalizing s a with
  | nil => rfl
  | cons b bs ih =>
    obtain ⟨h0, h1⟩ := h.head
    have hw : s.writeByte a b = .ok (s.setMem (s.mem.write (a % memSize) b)) := by simp only [State.writeByte, h0]
    simp only [State.writeBytes, hw]
    rw [ih (s := s.setMem (s.mem.write (a % memSize) b)) h1]
    rfl

/-- A block that is not reachable is refused at its first address of 4096 or more. -/
theorem writeBytes_unreachable {s : State} {a : Nat} {bs : List Byte} (h : ¬Reachable s a bs.length) :
    ∃ b, memSize ≤ b ∧ s.writeBytes a bs = .error (.addressOutOfRange b) := by
  induction bs generalizing s a with
  | nil => exact absurd (fun _ => Or.inr rfl) h
  | cons c bs ih =>
    have hp : s.params.oobPolicy = .refuse := by
      by_contra hne; exact h fun e => absurd e hne
    rcases writeByte_cases s a c with ⟨j, hj, hr⟩ | ⟨_, h2, h3⟩
    · have hlt : a < memSize := by
        by_contra hge
        simp [memIndex, hp, hge] at hj
      have h' : ¬Reachable (s.setMem (s.mem.write j c)) (a + 1) bs.length := by
        intro hr'
        rcases hr' hp with h1 | h1
        · exact h fun _ => .inl (by simp only [List.length_cons]; omega)
        · exact h fun _ => .inl (by simp only [List.length_cons]; omega)
      obtain ⟨b, hb, he⟩ := ih h'
      exact ⟨b, hb, by simp only [State.writeBytes, hr, he]⟩
    · exact ⟨a, h2, by simp only [State.writeBytes, h3]⟩

/-- A stored block keeps the canonical form. -/
theorem Memory.wf_writeAll {m : Memory} (h : m.wf = true) (a : Nat) (bs : List Byte) : (m.writeAll a bs).wf = true := by
  induction bs generalizing m a with
  | nil => exact h
  | cons b bs ih => exact ih (Memory.wf_write h (Nat.mod_lt _ (by decide))) (a + 1)

/-- An index no address of the block reaches reads as before. -/
theorem Memory.read_writeAll_ne {m : Memory} (h : m.wf = true) {a j : Nat} {bs : List Byte}
    (hj : ∀ k, k < bs.length → (a + k) % memSize ≠ j) : (m.writeAll a bs).read j = m.read j := by
  induction bs generalizing m a with
  | nil => rfl
  | cons b bs ih =>
    have h0 := hj 0 (by simp)
    rw [Memory.writeAll, ih (Memory.wf_write h (Nat.mod_lt _ (by decide))), Memory.read_write_ne h]
    · exact fun e => h0 e.symm
    · intro k hk
      have := hj (k + 1) (by simp; omega)
      rwa [Nat.add_right_comm, Nat.add_assoc]

/-- Each byte of a block no longer than memory is read back at its address. -/
theorem Memory.read_writeAll {m : Memory} (h : m.wf = true) {a k : Nat} {bs : List Byte} (hl : bs.length ≤ memSize)
    (hk : k < bs.length) : (m.writeAll a bs).read ((a + k) % memSize) = bs[k] := by
  induction bs generalizing m a k with
  | nil => exact absurd hk (by simp)
  | cons b bs ih =>
    have hw := Memory.wf_write (b := b) h (Nat.mod_lt a (show 0 < memSize by decide))
    simp only [List.length_cons] at hl hk
    cases k with
    | zero =>
      rw [Memory.writeAll, Memory.read_writeAll_ne hw]
      · simp [Memory.read_write_same h]
      · intro k hk'
        rw [show memSize = 4096 from rfl] at *
        omega
    | succ k =>
      have := ih hw (a := a + 1) (k := k) (by omega) (by omega)
      rw [Memory.writeAll]
      simpa [Nat.add_assoc, Nat.add_comm 1 k] using this

/-! ### The block of registers -/

theorem regBlock_length (s : State) (x : RegIx) : (regBlock s x).length = x.val + 1 := by
  simp [regBlock]

theorem regBlock_getElem (s : State) (x k : RegIx) (hk : k ≤ x) :
    (regBlock s x)[k.val]'(by rw [regBlock_length]; exact Nat.lt_succ_of_le hk) = s.reg k := by
  simp [regBlock, State.reg]

/-- A register after a block is loaded from register `k` on (R245). -/
theorem setRegsFrom_reg (s : State) (k : Nat) (bs : List Byte) (r : RegIx) :
    (s.setRegsFrom k bs).reg r = if k ≤ r.val ∧ r.val < k + bs.length then bs.getD (r.val - k) 0 else s.reg r := by
  induction bs generalizing s k with
  | nil => simp [State.setRegsFrom, show ¬(k ≤ r.val ∧ r.val < k) by omega]
  | cons b bs ih =>
    have hr := r.isLt
    simp only [State.setRegsFrom, List.length_cons]
    split
    case isTrue hk =>
      rw [ih, State.setReg_reg]
      by_cases hrk : r.val = k
      · have : r = ⟨k, hk⟩ := Fin.ext hrk
        subst this
        simp
      · have hne : r ≠ ⟨k, hk⟩ := fun e => hrk (congrArg Fin.val e)
        by_cases hin : k + 1 ≤ r.val ∧ r.val < k + 1 + bs.length
        · rw [if_pos hin, if_pos (by omega), show r.val - k = (r.val - (k + 1)) + 1 by omega, List.getD_cons_succ]
        · rw [if_neg hin, if_neg hne, if_neg (by omega)]
    case isFalse hk => rw [if_neg (by omega)]

/-- Loading a block of registers changes nothing but the register file. -/
theorem setRegsFrom_eq (s : State) (k : Nat) (bs : List Byte) :
    s.setRegsFrom k bs = { s with v := (s.setRegsFrom k bs).v } := by
  induction bs generalizing s k with
  | nil => rfl
  | cons b bs ih =>
    simp only [State.setRegsFrom]
    split
    case isTrue hk => rw [ih]; rfl
    case isFalse => rfl

/-! ### The stack -/

/-- A push with room: the entry at SP is the address, the others stay, SP is one more (R142). -/
theorem push_room {s : State} (h : s.sp.val < 16) (a : Word) :
    s.push a = some { s with stack := s.stack.set s.sp.val a, sp := ⟨s.sp.val + 1, by omega⟩ } := by
  simp [State.push, h]

theorem push_full {s : State} (h : s.sp.val = 16) (a : Word) : s.push a = none := by simp [State.push, h]

/-- A pop of a stack that holds an entry: the top, and SP one less with every entry kept (R36, R140). -/
theorem pop_entry {s : State} (h : 0 < s.sp.val) :
    s.pop = some (s.stack[s.sp.val - 1]'(by omega), { s with sp := ⟨s.sp.val - 1, by omega⟩ }) := by
  simp [State.pop, h]

theorem pop_empty {s : State} (h : s.sp.val = 0) : s.pop = none := by simp [State.pop, h]

/-! ### Results -/

@[simp] theorem orRefuse_ok {α : Type} (a : α) (k : α → Result) : orRefuse (.ok a) k = k a := rfl

@[simp] theorem orRefuse_error {α : Type} (r : Refusal) (k : α → Result) : orRefuse (.error r) k = .refused r := rfl

/-- A result that may be refused goes on only where the value is there. -/
theorem orRefuse_next {α : Type} {v : Except Refusal α} {k : α → Result} {t : State} (h : orRefuse v k = .next t) :
    ∃ a, v = .ok a ∧ k a = .next t := by
  cases v with
  | ok a => exact ⟨a, rfl, h⟩
  | error r => exact nomatch h

/-- A result that may be refused faults only where what follows faults. -/
theorem orRefuse_fault {α : Type} {v : Except Refusal α} {k : α → Result} {f : Fault} (h : orRefuse v k = .fault f) :
    ∃ a, v = .ok a ∧ k a = .fault f := by
  cases v with
  | ok a => exact ⟨a, rfl, h⟩
  | error r => exact nomatch h

/-- A result is refused where the value is, or where what follows is. -/
theorem orRefuse_refused {α : Type} {v : Except Refusal α} {k : α → Result} {r : Refusal}
    (h : orRefuse v k = .refused r) : v = .error r ∨ ∃ a, v = .ok a ∧ k a = .refused r := by
  cases v with
  | ok a => exact .inr ⟨a, rfl, h⟩
  | error e => injection h with h; exact .inl (by rw [h])

/-- What the key operand answers (R270): the low four bits, or a refusal above 0xF under REFUSE. -/
theorem keyIndex_cases (s : State) (x : RegIx) :
    (∃ k : RegIx, keyIndex s x = .ok k ∧ k.val = (s.reg x).toNat % 16 ∧
      (s.params.keyIndexPolicy = .lowNibble ∨ (s.reg x).toNat ≤ 0xF)) ∨
    (keyIndex s x = .error (.keyIndexRange (s.reg x)) ∧ s.params.keyIndexPolicy = .refuse ∧ 0xF < (s.reg x).toNat) := by
  have hv : (((s.reg x).extractLsb 3 0).toFin).val = (s.reg x).toNat % 16 := by
    simp [BitVec.extractLsb]
  unfold keyIndex
  cases hp : s.params.keyIndexPolicy with
  | lowNibble => exact .inl ⟨_, rfl, hv, .inl rfl⟩
  | refuse =>
    by_cases h : (s.reg x).toNat ≤ 0xF
    · exact .inl ⟨_, by simp [h], hv, .inr h⟩
    · exact .inr ⟨by simp [h], rfl, by omega⟩

end Sys2Proof.Machine
end

