-- ==== Sys2Proof/Laws/Exec.lean ====
section
/-! SUPPORT. What each instruction does, once: `exec` of an instruction that always goes on is one named update chain (true
by `rfl`); of one that may fault or be refused, its cases. Proofs about instructions cite these and never unfold a meaning. -/

namespace Sys2Proof.Machine

open Sys2Proof.Config

variable (s : State) (x y : RegIx) (n : Nibble) (nn : Byte) (nnn : Imm12)

/-! ### Instructions that always go on -/

theorem exec_jp : exec (.jp nnn) s = .next (s.setPc (immAddress nnn)) := rfl
theorem exec_jpV0 : exec (.jpV0 nnn) s = .next (s.setPc (immAddress nnn + regWord s 0)) := rfl
theorem exec_seVxNn : exec (.seVxNn x nn) s = .next (s.setPc (s.pc + if s.reg x == nn then 4 else 2)) := by
  rw [← State.skipIf_eq]; rfl
theorem exec_sneVxNn : exec (.sneVxNn x nn) s = .next (s.setPc (s.pc + if s.reg x != nn then 4 else 2)) := by
  rw [← State.skipIf_eq]; rfl
theorem exec_seVxVy : exec (.seVxVy x y n) s = .next (s.setPc (s.pc + if s.reg x == s.reg y then 4 else 2)) := by
  rw [← State.skipIf_eq]; rfl
theorem exec_sneVxVy : exec (.sneVxVy x y n) s = .next (s.setPc (s.pc + if s.reg x != s.reg y then 4 else 2)) := by
  rw [← State.skipIf_eq]; rfl
theorem exec_ldVxNn : exec (.ldVxNn x nn) s = .next (s.setReg x nn).advance := rfl
theorem exec_addVxNn : exec (.addVxNn x nn) s = .next (s.setReg x (s.reg x + nn)).advance := rfl
theorem exec_ldVxVy : exec (.ldVxVy x y) s = .next (s.setReg x (s.reg y)).advance := rfl
theorem exec_or : exec (.or x y) s = .next (s.setReg x (s.reg x ||| s.reg y)).advance := rfl
theorem exec_and : exec (.and x y) s = .next (s.setReg x (s.reg x &&& s.reg y)).advance := rfl
theorem exec_xor : exec (.xor x y) s = .next (s.setReg x (s.reg x ^^^ s.reg y)).advance := rfl
theorem exec_addVxVy : exec (.addVxVy x y) s =
    .next ((s.setReg x (s.reg x + s.reg y)).setReg vF (flagByte (carryFlag (s.reg x) (s.reg y)))).advance := rfl
theorem exec_sub : exec (.sub x y) s =
    .next ((s.setReg x (s.reg x - s.reg y)).setReg vF (flagByte (notBorrowFlag (s.reg x) (s.reg y)))).advance := rfl
theorem exec_subn : exec (.subn x y) s =
    .next ((s.setReg x (s.reg y - s.reg x)).setReg vF (flagByte (notBorrowFlag (s.reg y) (s.reg x)))).advance := rfl
theorem exec_rnd : exec (.rnd x nn) s =
    .next ((s.setReg x (Config.randByte s.randDraws &&& nn)).countDraw).advance := rfl
theorem exec_cls : exec .cls s = .next (s.setFb Framebuffer.clear).advance := rfl
theorem exec_scd : exec (.scd n) s = .next (s.setFb (s.fb.scrollDown n.toNat)).advance := rfl
theorem exec_scr : exec .scr s = .next (s.setFb s.fb.scrollRight4).advance := rfl
theorem exec_scl : exec .scl s = .next (s.setFb s.fb.scrollLeft4).advance := rfl
theorem exec_low : exec .low s = .next (s.setHires false).advance := rfl
theorem exec_high : exec .high s = .next (s.setHires true).advance := rfl
theorem exec_ldI : exec (.ldI nnn) s = .next (s.setI (immAddress nnn)).advance := rfl
theorem exec_addIVx : exec (.addIVx x) s = .next (s.setI (s.i + regWord s x)).advance := rfl
theorem exec_ldVxDt : exec (.ldVxDt x) s = .next (s.setReg x s.dt).advance := rfl
theorem exec_ldVxK : exec (.ldVxK x) s = .next (s.beginWait x).advance := rfl
theorem exec_ldDtVx : exec (.ldDtVx x) s = .next (s.setDt (s.reg x)).advance := rfl
theorem exec_ldStVx : exec (.ldStVx x) s = .next (s.setSt (s.reg x)).advance := rfl
theorem exec_exit : exec .exit s = .next s.setExit.advance := rfl
theorem exec_unlisted (w : Word) : exec (.unlisted w) s = .next s.advance := rfl

/-- The registers a shift writes (R178, R180): VX, VY where the legacy shift also writes it, then VF. -/
def shifted (b : Byte) (out : Bool) : State :=
  ((if s.legacyShift && s.params.legacyShiftWritesVy && y != x then (s.setReg x b).setReg y b else s.setReg x b).setReg vF
    (flagByte out)).advance

theorem exec_shr : exec (.shr x y) s =
    .next (shifted s x y (shiftSource s x y >>> 1) (shiftedOutRight (shiftSource s x y))) := rfl
theorem exec_shl : exec (.shl x y) s =
    .next (shifted s x y (shiftSource s x y <<< 1) (shiftedOutLeft (shiftSource s x y))) := rfl

/-- A shift leaves everything but the register file and pc alone. -/
theorem shifted_eq (b : Byte) (out : Bool) :
    shifted s x y b out = { s with v := (shifted s x y b out).v, pc := s.pc + 2 } := by
  unfold shifted; split <;> rfl

/-- The register file after a shift. -/
theorem shifted_reg (b : Byte) (out : Bool) (r : RegIx) : (shifted s x y b out).reg r =
    if r = vF then flagByte out
    else if r = x ∨ (r = y ∧ s.legacyShift = true ∧ s.params.legacyShiftWritesVy = true) then b else s.reg r := by
  unfold shifted
  by_cases hw : (s.legacyShift && s.params.legacyShiftWritesVy) = true
  · have h1 : s.legacyShift = true := (Bool.and_eq_true_iff.mp hw).1
    have h2 : s.params.legacyShiftWritesVy = true := (Bool.and_eq_true_iff.mp hw).2
    by_cases hyx : y = x
    · subst hyx; simp [h1, h2]
    · simp only [h1, h2, Bool.true_and, bne_iff_ne, ne_eq, hyx, not_false_eq_true, if_true, State.advance_reg,
        State.setReg_reg, and_self, and_true]
      by_cases hf : r = vF <;> by_cases hy : r = y <;> by_cases hx : r = x <;> simp [hf, hy, hx]
  · have h1 : ¬(s.legacyShift = true ∧ s.params.legacyShiftWritesVy = true) := by simpa using hw
    simp [hw, h1]

/-! ### The stack instructions (R140, R142) -/

/-- A call with room on the stack. -/
theorem exec_call_room (h : s.sp.val < 16) : exec (.call nnn) s =
    .next { s with stack := s.stack.set s.sp.val s.pc, sp := ⟨s.sp.val + 1, by omega⟩, pc := immAddress nnn } := by
  change execCall nnn s = _
  simp only [execCall, push_room h]; rfl

theorem exec_call_full (h : s.sp.val = 16) : exec (.call nnn) s = .fault (.stackOverflow s.pc) := by
  change execCall nnn s = _
  simp only [execCall, push_full h, raiseFault]

/-- A return with an entry on the stack. -/
theorem exec_ret_entry (h : 0 < s.sp.val) : exec .ret s =
    .next { s with sp := ⟨s.sp.val - 1, by omega⟩, pc := s.stack[s.sp.val - 1]'(by omega) + 2 } := by
  change execRet s = _
  simp only [execRet, pop_entry h]; rfl

theorem exec_ret_empty (h : s.sp.val = 0) : exec .ret s = .fault (.stackUnderflow s.pc) := by
  change execRet s = _
  simp only [execRet, pop_empty h, raiseFault]

/-! ### Instructions a REFUSE policy may refuse -/

theorem exec_skp_cases :
    (∃ k : RegIx, k.val = (s.reg x).toNat % 16 ∧ (s.params.keyIndexPolicy = .lowNibble ∨ (s.reg x).toNat ≤ 0xF) ∧
      exec (.skp x) s = .next (s.setPc (s.pc + if s.keyDown k then 4 else 2))) ∨
    (s.params.keyIndexPolicy = .refuse ∧ 0xF < (s.reg x).toNat ∧
      exec (.skp x) s = .refused (.keyIndexRange (s.reg x))) := by
  change (∃ k : RegIx, _ ∧ _ ∧ execSkp x s = _) ∨ (_ ∧ _ ∧ execSkp x s = _)
  rcases keyIndex_cases s x with ⟨k, h1, h2, h3⟩ | ⟨h1, h2, h3⟩
  · exact .inl ⟨k, h2, h3, by simp [execSkp, h1, State.skipIf_eq]⟩
  · exact .inr ⟨h2, h3, by simp [execSkp, h1]⟩

theorem exec_sknp_cases :
    (∃ k : RegIx, k.val = (s.reg x).toNat % 16 ∧ (s.params.keyIndexPolicy = .lowNibble ∨ (s.reg x).toNat ≤ 0xF) ∧
      exec (.sknp x) s = .next (s.setPc (s.pc + if s.keyDown k then 2 else 4))) ∨
    (s.params.keyIndexPolicy = .refuse ∧ 0xF < (s.reg x).toNat ∧
      exec (.sknp x) s = .refused (.keyIndexRange (s.reg x))) := by
  change (∃ k : RegIx, _ ∧ _ ∧ execSknp x s = _) ∨ (_ ∧ _ ∧ execSknp x s = _)
  rcases keyIndex_cases s x with ⟨k, h1, h2, h3⟩ | ⟨h1, h2, h3⟩
  · refine .inl ⟨k, h2, h3, ?_⟩
    simp only [execSknp, h1, orRefuse_ok, State.skipIf_eq]
    cases s.keyDown k <;> rfl
  · exact .inr ⟨h2, h3, by simp [execSknp, h1]⟩

/-- FX29 goes on with some address, or is refused for a digit above 0xF. -/
theorem exec_ldF_cases :
    (∃ a, fontGlyphAddress s.params.fontIndexPolicy (s.reg x) = .ok a ∧ exec (.ldF x) s = .next (s.setI a).advance) ∨
    (s.params.fontIndexPolicy = .refuse ∧ 0xF < (s.reg x).toNat ∧
      exec (.ldF x) s = .refused (.fontDigitRange (s.reg x))) := by
  change (∃ a, _ ∧ execLdF x s = _) ∨ (_ ∧ _ ∧ execLdF x s = _)
  unfold execLdF fontGlyphAddress
  split
  · exact .inl ⟨_, rfl, rfl⟩
  · split
    · exact .inl ⟨_, rfl, rfl⟩
    · exact .inl ⟨_, rfl, rfl⟩
    case h_3 hp => exact .inr ⟨hp, by omega, rfl⟩

theorem exec_ldB_reachable (h : Reachable s s.i.toNat 3) : exec (.ldB x) s =
    .next (s.setMem (s.mem.writeAll s.i.toNat (bcdDigits (s.reg x)))).advance := by
  change execLdB x s = _
  unfold execLdB
  rw [writeBytes_reachable (bs := bcdDigits (s.reg x)) h]; rfl

theorem exec_ldB_unreachable (h : ¬Reachable s s.i.toNat 3) :
    ∃ a, memSize ≤ a ∧ exec (.ldB x) s = .refused (.addressOutOfRange a) := by
  obtain ⟨a, ha, he⟩ := writeBytes_unreachable (bs := bcdDigits (s.reg x)) h
  refine ⟨a, ha, ?_⟩
  change execLdB x s = _
  unfold execLdB
  rw [he]; rfl

theorem exec_ldMemVx_reachable (h : Reachable s s.i.toNat (x.val + 1)) : exec (.ldMemVx x) s =
    .next ((s.setMem (s.mem.writeAll s.i.toNat (regBlock s x))).afterMemop x).advance := by
  change execLdMemVx x s = _
  unfold execLdMemVx
  rw [writeBytes_reachable (bs := regBlock s x) (by rwa [regBlock_length])]; rfl

theorem exec_ldMemVx_unreachable (h : ¬Reachable s s.i.toNat (x.val + 1)) :
    ∃ a, memSize ≤ a ∧ exec (.ldMemVx x) s = .refused (.addressOutOfRange a) := by
  obtain ⟨a, ha, he⟩ := writeBytes_unreachable (bs := regBlock s x) (by rwa [regBlock_length])
  refine ⟨a, ha, ?_⟩
  change execLdMemVx x s = _
  unfold execLdMemVx
  rw [he]; rfl

/-- The bytes a reachable block holds. -/
def blockBytes (a k : Nat) : List Byte := (List.range k).map fun j => s.mem.read ((a + j) % memSize)

theorem blockBytes_length (a k : Nat) : (blockBytes s a k).length = k := by simp [blockBytes]

theorem blockBytes_getD (a : Nat) {k j : Nat} (h : j < k) :
    (blockBytes s a k).getD j 0 = s.mem.read ((a + j) % memSize) := by
  simp [blockBytes, h]

theorem exec_ldVxMem_reachable (h : Reachable s s.i.toNat (x.val + 1)) : exec (.ldVxMem x) s =
    .next ((s.setRegsFrom 0 (blockBytes s s.i.toNat (x.val + 1))).afterMemop x).advance := by
  change execLdVxMem x s = _
  unfold execLdVxMem
  rw [readBytes_reachable h]; rfl

theorem exec_ldVxMem_unreachable (h : ¬Reachable s s.i.toNat (x.val + 1)) :
    ∃ a, memSize ≤ a ∧ exec (.ldVxMem x) s = .refused (.addressOutOfRange a) := by
  obtain ⟨a, ha, he⟩ := readBytes_unreachable h
  refine ⟨a, ha, ?_⟩
  change execLdVxMem x s = _
  unfold execLdVxMem
  rw [he]; rfl

/-! ### DXYN (R202 to R205) -/

/-- The end of a draw changes the framebuffer, VF and pc. -/
theorem drawn_eq (fb : Framebuffer) (f : Byte) : s.drawn fb f = ((s.setFb fb).setReg vF f).advance := rfl

/-- The bytes of the sprite DXYN draws. -/
def spriteBytes : List Byte := blockBytes s s.i.toNat (spriteLength s y n)

theorem exec_drw_low (hh : s.hires = false) (h : Reachable s s.i.toNat (spriteLength s y n)) : exec (.drw x y n) s =
    .next (s.drawn (drawLow ((s.reg x).toNat % 64) ((s.reg y).toNat % 32) 0 (spriteBytes s y n) (s.fb, false)).1
      (flagByte (drawLow ((s.reg x).toNat % 64) ((s.reg y).toNat % 32) 0 (spriteBytes s y n) (s.fb, false)).2)) := by
  have hl : spriteLength s y n = n.toNat := by simp [spriteLength, hh]
  change execDrw x y n s = _
  rw [hl] at h
  simp only [execDrw, hh, Bool.false_eq_true, if_false, drawLowPath, readBytes_reachable h, orRefuse_ok, spriteX, spriteY,
    spriteBytes, hl, blockBytes]

theorem exec_drw_high (hh : s.hires = true) (h : Reachable s s.i.toNat (spriteLength s y n)) : exec (.drw x y n) s =
    .next (s.drawn
      (drawHigh ((s.reg x).toNat % 128) ((s.reg y).toNat % 64) (spriteRows (highRowBytes n) (spriteBytes s y n)) (s.fb, 0)).1
      (rowCountFlag
        (drawHigh ((s.reg x).toNat % 128) ((s.reg y).toNat % 64) (spriteRows (highRowBytes n) (spriteBytes s y n)) (s.fb, 0)).2
        (highHeight n - visibleRows (highHeight n) ((s.reg y).toNat % 64)))) := by
  have hl : spriteLength s y n = highRowBytes n * visibleRows (highHeight n) ((s.reg y).toNat % 64) := by
    simp [spriteLength, hh]
  change execDrw x y n s = _
  rw [hl] at h
  simp only [execDrw, hh, if_true, drawHighPath, spriteX, spriteY, spriteBytes, hl, blockBytes]
  rw [readBytes_reachable h]; rfl

theorem exec_drw_unreachable (h : ¬Reachable s s.i.toNat (spriteLength s y n)) :
    ∃ a, memSize ≤ a ∧ exec (.drw x y n) s = .refused (.addressOutOfRange a) := by
  obtain ⟨a, ha, he⟩ := readBytes_unreachable h
  refine ⟨a, ha, ?_⟩
  change execDrw x y n s = _
  cases hh : s.hires with
  | false =>
    simp only [spriteLength, hh, Bool.false_eq_true, if_false] at he
    simp only [execDrw, hh, Bool.false_eq_true, if_false, drawLowPath, he, orRefuse_error]
  | true =>
    simp only [spriteLength, hh, if_true] at he
    simp only [execDrw, hh, if_true, drawHighPath, spriteY]
    rw [he]; rfl

/-- Whatever its sprite, a draw changes the framebuffer, VF and pc alone, or is refused for an address out of range. -/
theorem exec_drw_cases :
    (∃ fb f, exec (.drw x y n) s = .next (s.drawn fb f)) ∨
    (s.params.oobPolicy = .refuse ∧ ∃ a, memSize ≤ a ∧ exec (.drw x y n) s = .refused (.addressOutOfRange a)) := by
  by_cases h : Reachable s s.i.toNat (spriteLength s y n)
  · cases hh : s.hires with
    | false => exact .inl ⟨_, _, exec_drw_low s x y n hh h⟩
    | true => exact .inl ⟨_, _, exec_drw_high s x y n hh h⟩
  · refine .inr ⟨?_, exec_drw_unreachable s x y n h⟩
    by_contra hp
    exact h fun e => absurd e hp

/-- Under WRAP, or for a block that ends by 4096, every address is reachable; elsewhere the policy is REFUSE. -/
theorem reachable_or_refuse (a k : Nat) : Reachable s a k ∨ (s.params.oobPolicy = .refuse ∧ ¬Reachable s a k) := by
  by_cases h : Reachable s a k
  · exact .inl h
  · refine .inr ⟨?_, h⟩
    by_contra hp
    exact h fun e => absurd e hp

/-! ### Sprite bits and bytes -/

theorem spriteBytes_getD {s : State} {y : RegIx} {n : Nibble} {k : Nat} (h : k < spriteLength s y n) (c : Nat) :
    ((spriteBytes s y n).getD k 0).getLsbD (7 - c) = spriteBit s k c := by
  rw [spriteBytes, blockBytes_getD _ _ h]; rfl

/-- A high-resolution sprite has at most 16 rows of one or two bytes (R204). -/
theorem highSprite_bounds (n : Nibble) : highHeight n ≤ 16 ∧ (highRowBytes n = 1 ∨ highRowBytes n = 2) := by
  unfold highHeight highRowBytes
  have := n.isLt
  split <;> omega

/-- The columns a visible row of the sprite's bytes covers are those `coversHighRow` names (R204). -/
theorem rowCovers_spriteRows {s : State} (x : RegIx) {y : RegIx} {n : Nibble} (hh : s.hires = true) {k : Nat}
    (hk : k < visibleRows (highHeight n) ((s.reg y).toNat % 64)) (c : Nat) :
    rowCovers ((s.reg x).toNat % 128) ((spriteRows (highRowBytes n) (spriteBytes s y n)).getD k []) c
      = coversHighRow s x n k c := by
  have hl : spriteLength s y n = highRowBytes n * visibleRows (highHeight n) ((s.reg y).toNat % 64) := by
    simp [spriteLength, hh]
  obtain ⟨h16, hw⟩ := highSprite_bounds n
  obtain ⟨h1, h2, h3⟩ := spriteRows_spec hw (bytes := spriteBytes s y n)
    (m := visibleRows (highHeight n) ((s.reg y).toNat % 64)) (by rw [spriteBytes, blockBytes_length, hl])
  simp only [rowCovers, coversHighRow, h2 k hk]
  rw [Bool.eq_iff_iff]
  simp only [List.any_eq_true, List.mem_range, Bool.and_eq_true, beq_iff_eq]
  refine exists_congr fun j => and_congr_right fun hj => and_congr_left fun _ => ?_
  rw [h3 k (j / 8) hk (by omega), spriteBytes_getD]
  rw [hl]
  generalize visibleRows (highHeight n) ((s.reg y).toNat % 64) = m at *
  rcases hw with e | e <;> rw [e] at hj ⊢ <;> omega

/-! ### What every instruction leaves alone -/

/-- An instruction that goes on changes none but these items: not the key latch, FAULT, CYCLE_COST, the accumulators, the
configuration or the parameters (R42, R46, R48, R50). -/
theorem exec_next_shape {i : Instr} {s t : State} (h : exec i s = .next t) :
    t = { s with v := t.v, i := t.i, pc := t.pc, sp := t.sp, stack := t.stack, dt := t.dt, st := t.st,
                 mem := t.mem, fb := t.fb, hires := t.hires, awaiting := t.awaiting,
                 awaitReg := t.awaitReg, exit := t.exit, randDraws := t.randDraws } := by
  cases i
  case ret =>
    by_cases hs : s.sp.val = 0
    · rw [exec_ret_empty s hs] at h; exact nomatch h
    · rw [exec_ret_entry s (by omega)] at h; injection h with h; subst h; rfl
  case call n =>
    by_cases hs : s.sp.val = 16
    · rw [exec_call_full s n hs] at h; exact nomatch h
    · rw [exec_call_room s n (by omega)] at h; injection h with h; subst h; rfl
  case shr x y => rw [exec_shr] at h; injection h with h; subst h; rw [shifted_eq]
  case shl x y => rw [exec_shl] at h; injection h with h; subst h; rw [shifted_eq]
  case skp x =>
    rcases exec_skp_cases s x with ⟨k, _, _, h1⟩ | ⟨_, _, h1⟩ <;> rw [h1] at h
    · injection h with h; subst h; rfl
    · exact nomatch h
  case sknp x =>
    rcases exec_sknp_cases s x with ⟨k, _, _, h1⟩ | ⟨_, _, h1⟩ <;> rw [h1] at h
    · injection h with h; subst h; rfl
    · exact nomatch h
  case ldF x =>
    rcases exec_ldF_cases s x with ⟨k, _, h1⟩ | ⟨_, _, h1⟩ <;> rw [h1] at h
    · injection h with h; subst h; rfl
    · exact nomatch h
  case drw x y n =>
    rcases exec_drw_cases s x y n with ⟨k, _, h1⟩ | ⟨_, _, _, h1⟩ <;> rw [h1] at h
    · injection h with h; subst h; rfl
    · exact nomatch h
  case ldB x =>
    by_cases hr : Reachable s s.i.toNat 3
    · rw [exec_ldB_reachable s x hr] at h
      injection h with h; subst h; rfl
    · obtain ⟨a, _, h1⟩ := exec_ldB_unreachable s x hr
      rw [h1] at h; exact nomatch h
  case ldMemVx x =>
    by_cases hr : Reachable s s.i.toNat (x.val + 1)
    · rw [exec_ldMemVx_reachable s x hr] at h
      injection h with h; subst h; unfold State.afterMemop; split <;> rfl
    · obtain ⟨a, _, h1⟩ := exec_ldMemVx_unreachable s x hr
      rw [h1] at h; exact nomatch h
  case ldVxMem x =>
    by_cases hr : Reachable s s.i.toNat (x.val + 1)
    · rw [exec_ldVxMem_reachable s x hr] at h
      injection h with h; subst h; rw [setRegsFrom_eq]; unfold State.afterMemop; split <;> rfl
    · obtain ⟨a, _, h1⟩ := exec_ldVxMem_unreachable s x hr
      rw [h1] at h; exact nomatch h
  all_goals
    simp only [exec_jp, exec_jpV0, exec_seVxNn, exec_sneVxNn, exec_seVxVy, exec_sneVxVy, exec_ldVxNn, exec_addVxNn,
      exec_ldVxVy, exec_or, exec_and, exec_xor, exec_addVxVy, exec_sub, exec_subn, exec_rnd, exec_cls, exec_scd,
      exec_scr, exec_scl, exec_low, exec_high, exec_ldI, exec_addIVx, exec_ldVxDt, exec_ldVxK, exec_ldDtVx,
      exec_ldStVx, exec_exit, exec_unlisted] at h
    injection h with h; subst h; rfl

end Sys2Proof.Machine
end

