-- ==== Sys2Proof/Laws/PerInstr.lean ====
section
/-! SUPPORT. Statements for all instructions, one lemma per constructor (spec 30_encoding.md R114, R115). -/

/-- The word `encode` gives an instruction is one its own row of spec/opcode_table.json selects, whatever the operands;
an unlisted word has no row and is its own word. -/
def Sys2Proof.Laws.EncodesToRow.Statement (i : Sys2Proof.Instr) : Prop :=
  (∀ row, Sys2Proof.tableRow i = some row →
    row ∈ Sys2Proof.opcodeTable ∧ Sys2Proof.rowSelects row (Sys2Proof.encode i) = true) ∧
  (Sys2Proof.tableRow i = none → i = .unlisted (Sys2Proof.encode i))

namespace Sys2Proof.Laws.EncodesToRow

/-- An instruction with a row of the table: it is enough that the row is there and selects the word. -/
theorem of_row {i : Instr} {mask m : Word} (h : tableRow i = some (mask, m)) (ht : (mask, m) ∈ opcodeTable)
    (hw : encode i &&& mask = m) : Statement i := by
  refine ⟨fun row hr => ?_, fun hn => ?_⟩
  · rw [h] at hr
    injection hr with hr
    subst hr
    exact ⟨ht, by simp [rowSelects, hw]⟩
  · rw [h] at hn; exact nomatch hn

theorem cls : Statement (.cls) := of_row rfl (by decide) rfl
theorem ret : Statement (.ret) := of_row rfl (by decide) rfl
theorem scd (n : Nibble) : Statement (.scd n) := of_row rfl (by decide) (by revert n; decide)
theorem scr : Statement (.scr) := of_row rfl (by decide) rfl
theorem scl : Statement (.scl) := of_row rfl (by decide) rfl
theorem exit : Statement (.exit) := of_row rfl (by decide) rfl
theorem low : Statement (.low) := of_row rfl (by decide) rfl
theorem high : Statement (.high) := of_row rfl (by decide) rfl
theorem jp (nnn : Imm12) : Statement (.jp nnn) := of_row rfl (by decide) (by simp [encode, and_F000]; rfl)
theorem call (nnn : Imm12) : Statement (.call nnn) := of_row rfl (by decide) (by simp [encode, and_F000]; rfl)
theorem seVxNn (x : RegIx) (nn : Byte) : Statement (.seVxNn x nn) :=
  of_row rfl (by decide) (by simp [encode, and_F000]; rfl)
theorem sneVxNn (x : RegIx) (nn : Byte) : Statement (.sneVxNn x nn) :=
  of_row rfl (by decide) (by simp [encode, and_F000]; rfl)
theorem seVxVy (x y : RegIx) (n : Nibble) : Statement (.seVxVy x y n) :=
  of_row rfl (by decide) (by simp [encode, and_F000]; rfl)
theorem ldVxNn (x : RegIx) (nn : Byte) : Statement (.ldVxNn x nn) :=
  of_row rfl (by decide) (by simp [encode, and_F000]; rfl)
theorem addVxNn (x : RegIx) (nn : Byte) : Statement (.addVxNn x nn) :=
  of_row rfl (by decide) (by simp [encode, and_F000]; rfl)
theorem ldVxVy (x y : RegIx) : Statement (.ldVxVy x y) := of_row rfl (by decide) (by simp [encode, and_F00F]; rfl)
theorem or (x y : RegIx) : Statement (.or x y) := of_row rfl (by decide) (by simp [encode, and_F00F]; rfl)
theorem and (x y : RegIx) : Statement (.and x y) := of_row rfl (by decide) (by simp [encode, and_F00F]; rfl)
theorem xor (x y : RegIx) : Statement (.xor x y) := of_row rfl (by decide) (by simp [encode, and_F00F]; rfl)
theorem addVxVy (x y : RegIx) : Statement (.addVxVy x y) := of_row rfl (by decide) (by simp [encode, and_F00F]; rfl)
theorem sub (x y : RegIx) : Statement (.sub x y) := of_row rfl (by decide) (by simp [encode, and_F00F]; rfl)
theorem shr (x y : RegIx) : Statement (.shr x y) := of_row rfl (by decide) (by simp [encode, and_F00F]; rfl)
theorem subn (x y : RegIx) : Statement (.subn x y) := of_row rfl (by decide) (by simp [encode, and_F00F]; rfl)
theorem shl (x y : RegIx) : Statement (.shl x y) := of_row rfl (by decide) (by simp [encode, and_F00F]; rfl)
theorem sneVxVy (x y : RegIx) (n : Nibble) : Statement (.sneVxVy x y n) :=
  of_row rfl (by decide) (by simp [encode, and_F000]; rfl)
theorem ldI (nnn : Imm12) : Statement (.ldI nnn) := of_row rfl (by decide) (by simp [encode, and_F000]; rfl)
theorem jpV0 (nnn : Imm12) : Statement (.jpV0 nnn) := of_row rfl (by decide) (by simp [encode, and_F000]; rfl)
theorem rnd (x : RegIx) (nn : Byte) : Statement (.rnd x nn) := of_row rfl (by decide) (by simp [encode, and_F000]; rfl)
theorem drw (x y : RegIx) (n : Nibble) : Statement (.drw x y n) :=
  of_row rfl (by decide) (by simp [encode, and_F000]; rfl)
theorem skp (x : RegIx) : Statement (.skp x) := of_row rfl (by decide) (by simp [encode, and_F0FF]; rfl)
theorem sknp (x : RegIx) : Statement (.sknp x) := of_row rfl (by decide) (by simp [encode, and_F0FF]; rfl)
theorem ldVxDt (x : RegIx) : Statement (.ldVxDt x) := of_row rfl (by decide) (by simp [encode, and_F0FF]; rfl)
theorem ldVxK (x : RegIx) : Statement (.ldVxK x) := of_row rfl (by decide) (by simp [encode, and_F0FF]; rfl)
theorem ldDtVx (x : RegIx) : Statement (.ldDtVx x) := of_row rfl (by decide) (by simp [encode, and_F0FF]; rfl)
theorem ldStVx (x : RegIx) : Statement (.ldStVx x) := of_row rfl (by decide) (by simp [encode, and_F0FF]; rfl)
theorem addIVx (x : RegIx) : Statement (.addIVx x) := of_row rfl (by decide) (by simp [encode, and_F0FF]; rfl)
theorem ldF (x : RegIx) : Statement (.ldF x) := of_row rfl (by decide) (by simp [encode, and_F0FF]; rfl)
theorem ldB (x : RegIx) : Statement (.ldB x) := of_row rfl (by decide) (by simp [encode, and_F0FF]; rfl)
theorem ldMemVx (x : RegIx) : Statement (.ldMemVx x) := of_row rfl (by decide) (by simp [encode, and_F0FF]; rfl)
theorem ldVxMem (x : RegIx) : Statement (.ldVxMem x) := of_row rfl (by decide) (by simp [encode, and_F0FF]; rfl)
theorem unlisted (w : Word) : Statement (.unlisted w) := ⟨fun row h => by simp [tableRow] at h, fun _ => rfl⟩

end Sys2Proof.Laws.EncodesToRow
end

