-- ==== Sys2Proof/Laws/Step.lean ====
section
/-! SUPPORT. What one step can do, once (spec 30_encoding.md R101, R111, R113): proofs about a step cite these and never
unfold `step`. -/

namespace Sys2Proof.Machine

open Sys2Proof.Config

variable {s t : State}

theorem step_faulted (h : s.fault ≠ .none) : step s = .fault (.noStepAfterFault s.fault) := by
  simp [step, beforeFetch, h]

theorem step_awaiting (h : s.fault = .none) (ha : s.awaiting = true) : step s = .next s := by
  simp [step, beforeFetch, h, ha]

theorem step_running (h : Running s) :
    step s = orRefuse (fetchWord s) fun w => finishStep w s (exec (decode s.params.family0Match w) s) := by
  simp [step, beforeFetch, h.1, h.2]

@[simp] theorem finishStep_next (w : Word) (s t : State) :
    finishStep w s (.next t) = .next (t.setCycleCost (instructionCost w s t)) := rfl
@[simp] theorem finishStep_fault (w : Word) (s : State) (f : Fault) : finishStep w s (.fault f) = .fault f := rfl
@[simp] theorem finishStep_refused (w : Word) (s : State) (r : Refusal) : finishStep w s (.refused r) = .refused r := rfl

/-- A step that goes on: a no-op of a waiting core, or one instruction of a running one and the write of CYCLE_COST. -/
theorem step_next_cases (h : step s = .next t) :
    (s.fault = .none ∧ s.awaiting = true ∧ t = s) ∨
    (Running s ∧ ∃ w u, fetchWord s = .ok w ∧ exec (decode s.params.family0Match w) s = .next u ∧
      t = u.setCycleCost (instructionCost w s u)) := by
  by_cases hf : s.fault = .none
  · by_cases ha : s.awaiting = true
    · rw [step_awaiting hf ha] at h
      injection h with h
      exact .inl ⟨hf, ha, h.symm⟩
    · have hr : Running s := ⟨hf, by simpa using ha⟩
      rw [step_running hr] at h
      obtain ⟨w, hw, h⟩ := orRefuse_next h
      refine .inr ⟨hr, w, ?_⟩
      cases hx : exec (decode s.params.family0Match w) s with
      | next u =>
        rw [hx, finishStep_next] at h
        injection h with h
        exact ⟨u, hw, rfl, h.symm⟩
      | fault f => rw [hx] at h; exact nomatch h
      | refused r => rw [hx] at h; exact nomatch h
  · rw [step_faulted hf] at h; exact nomatch h

/-- A step of a running core that faults: its instruction faults. -/
theorem step_fault_cases {f : Fault} (hr : Running s) (h : step s = .fault f) :
    ∃ w, fetchWord s = .ok w ∧ exec (decode s.params.family0Match w) s = .fault f := by
  rw [step_running hr] at h
  obtain ⟨w, hw, h⟩ := orRefuse_fault h
  refine ⟨w, hw, ?_⟩
  cases hx : exec (decode s.params.family0Match w) s with
  | next u => rw [hx] at h; exact nomatch h
  | fault g => rw [hx, finishStep_fault] at h; exact h
  | refused r => rw [hx] at h; exact nomatch h

/-- The cost of an executed instruction is positive, and within the cap where the cap is positive (R113, R325). -/
theorem instructionCost_bounds (w : Word) (s u : State) :
    1 ≤ instructionCost w s u ∧ (1 ≤ s.params.maxCatchupCycles → instructionCost w s u ≤ s.params.maxCatchupCycles) := by
  unfold instructionCost accurateCost
  split
  · exact ⟨Nat.le_refl _, id⟩
  · refine ⟨Nat.le_add_right _ _, fun h => ?_⟩
    have := Nat.mod_lt (Config.costOffset (costInputs w s u)) h
    omega

/-- A fetch gives the two bytes at pc and pc + 1, or is refused with the first read that is (R101, R72). -/
theorem fetchWord_cases (s : State) :
    (∃ j k, memIndex s.params.oobPolicy s.pc.toNat = .ok j ∧ memIndex s.params.oobPolicy (s.pc.toNat + 1) = .ok k ∧
      fetchWord s = .ok (wordOfBytes (s.mem.read j) (s.mem.read k))) ∨
    (s.params.oobPolicy = .refuse ∧ ∃ a, memSize ≤ a ∧ fetchWord s = .error (.addressOutOfRange a)) := by
  unfold fetchWord
  rcases readByte_cases s s.pc.toNat with ⟨j, hj, h1⟩ | ⟨hp, ha, h1⟩
  · rcases readByte_cases s (s.pc.toNat + 1) with ⟨k, hk, h2⟩ | ⟨hp, ha, h2⟩
    · exact .inl ⟨j, k, hj, hk, by rw [h1, h2]⟩
    · exact .inr ⟨hp, _, ha, by rw [h1, h2]⟩
  · exact .inr ⟨hp, _, ha, by rw [h1]⟩

/-- A fetch looks at memory, pc and OOB_POLICY alone. -/
theorem fetchWord_congr (hm : t.mem = s.mem) (hp : t.pc = s.pc) (ho : t.params = s.params) : fetchWord t = fetchWord s := by
  simp only [fetchWord, State.readByte, hm, hp, ho]

end Sys2Proof.Machine
end

