-- ==== Sys2Proof/Laws/Units.lean ====
section
/-! SUPPORT. What the timer unit's loop, the input latch, the clock's charge and construction's font do, once (spec
60_exceptions.md R310, R321, R330, R331; 70_reset_and_hazards.md R360). -/

namespace Sys2Proof.Machine

open Sys2Proof.Config

/-- One less, never below zero. -/
theorem countDown_toNat (b : Byte) : (countDown b).toNat = b.toNat - 1 := by
  revert b; decide

/-- `n` rounds of the timer loop, where the accumulator holds time for exactly `n`: each timer is `n` lower and not below
zero, the accumulator has lost n/60 s, and nothing else changes (R310). -/
theorem timerLoop_spec {n : Nat} {s : State} (h0 : 0 ≤ s.tmrAcc) (h1 : (n : Rat) / 60 ≤ s.tmrAcc)
    (h2 : s.tmrAcc < ((n : Rat) + 1) / 60) :
    (timerLoop n s).dt.toNat = s.dt.toNat - n ∧ (timerLoop n s).st.toNat = s.st.toNat - n ∧
    (timerLoop n s).tmrAcc = s.tmrAcc - n / 60 ∧
    timerLoop n s = { s with dt := (timerLoop n s).dt, st := (timerLoop n s).st, tmrAcc := (timerLoop n s).tmrAcc } := by
  induction n generalizing s with
  | zero => simp [timerLoop]
  | succ n ih =>
    have hn : (0 : Rat) ≤ n := Nat.cast_nonneg n
    push_cast at h1 h2
    have hle : timerPeriod ≤ s.tmrAcc := by unfold timerPeriod; linarith
    have hl : timerLoop (n + 1) s = timerLoop n (timerTick s) := by simp only [timerLoop, hle, if_true]
    have ht : (timerTick s).tmrAcc = s.tmrAcc - 1 / 60 := rfl
    have hd : (timerTick s).dt = countDown s.dt := rfl
    have hs : (timerTick s).st = countDown s.st := rfl
    obtain ⟨a, b, c, d⟩ := ih (s := timerTick s) (by rw [ht]; unfold timerPeriod at hle; linarith) (by rw [ht]; linarith)
      (by rw [ht]; linarith)
    rw [hl]
    refine ⟨?_, ?_, ?_, ?_⟩
    · rw [a, hd, countDown_toNat]; omega
    · rw [b, hs, countDown_toNat]; omega
    · rw [c, ht]; push_cast; ring
    · rw [d]; rfl

/-- A key press of a running core sets one key bit; of a waiting core it also writes the recorded register and ends the wait
(R330). -/
theorem keyPress_running {s : State} (h : s.awaiting = false) (k : RegIx) : keyPress k s = s.setKey k true := by
  simp [keyPress, h]
theorem keyPress_waiting {s : State} (h : s.awaiting = true) (k : RegIx) :
    keyPress k s = ((s.setKey k true).setReg s.awaitReg (BitVec.ofNat 8 k.val)).endWait := by
  simp [keyPress, h]

/-- The charge of a step is at least one cycle where CYCLE_COST is (R321, R325). -/
theorem stepCharge_pos {s : State} (h : 1 ≤ s.cycleCost) : 1 ≤ stepCharge s := by
  unfold stepCharge; split
  · exact Nat.le_refl _
  · exact h

/-- In FIXED mode every step is charged one cycle (R321). -/
theorem stepCharge_fixed {s : State} (h : s.timingMode = .fixed) : stepCharge s = 1 := by simp [stepCharge, h]

@[simp] theorem stepCharge_setClkAcc (s : State) (a : Rat) : stepCharge (s.setClkAcc a) = stepCharge s := rfl
@[simp] theorem clockPeriod_setClkAcc (s : State) (a : Rat) : clockPeriod (s.setClkAcc a) = clockPeriod s := rfl

@[simp] theorem chargedCycles_zero (s : State) : chargedCycles 0 s = 0 := rfl
/-- A step that goes on is charged, and so are those after it; a step that does not go on is charged alone (R321). -/
theorem chargedCycles_next {s t : State} (h : step s = .next t) (n : Nat) :
    chargedCycles (n + 1) s = stepCharge s + chargedCycles n t := by
  rw [chargedCycles, h]
theorem chargedCycles_fault {s : State} {f : Fault} (h : step s = .fault f) (n : Nat) :
    chargedCycles (n + 1) s = stepCharge s := by
  rw [chargedCycles, h]

/-- A list of exactly the 80 FONT_BYTES is the font as it stands (R360). -/
theorem fontBlock_full {font : List Byte} (h : font.length = 80) : fontBlock font = font := by
  unfold fontBlock; rw [← show font.length = fontSize from h]; exact List.take_left

/-- Construction always lays down 80 bytes. -/
@[simp] theorem fontBlock_length (font : List Byte) : (fontBlock font).length = fontSize := by
  simp [fontBlock, fontSize]

end Sys2Proof.Machine
end

