-- ==== Sys2Proof/Tests/Slice0.lean ====
section
/-! SUPPORT. The model's own tests: the ill-formed terms, the decoding of written-out words, and the worked vectors of
spec/95_test_vectors.md, one step each. Every expected value comes from the spec; a test's comment names its vector. -/

namespace Sys2Proof.Tests

open Sys2Proof.Machine Sys2Proof.Config

/-- What `f` reads in the state a result goes on with. -/
def seen {α : Type} (f : State → α) (r : Result) : Option α :=
  match r with
  | .next t => some (f t)
  | _       => none

/-- Run the word `w` for one step from `s` and read `f`. -/
def run {α : Type} (w : Nat) (s : State) (f : State → α) : Option α := seen f (step (s.withFetchWord 16 w))

/-- `s` with registers set. -/
def regs (l : List (RegIx × Byte)) (s : State) : State := l.foldl (fun s p => s.setReg p.1 p.2) s

/-- `s` with bytes from address `a` on. -/
def bytes (a : Nat) (l : List Byte) (s : State) : State := s.setMem (Memory.copyIn s.mem a l)

/-- `s` with the bits of the listed places inverted. -/
def lit (l : List (Nat × Nat)) (s : State) : State := s.setFb (l.foldl (fun fb p => fb.flip p.1 p.2) s.fb)

/-- How many bits of the framebuffer are 1. -/
def litCount (s : State) : Nat :=
  ((s.fb.view true).map fun row => (row.filter id).length).foldl (· + ·) 0

/-- Elapsed times in the vectors. -/
def time (n : Nat) (d : Nat) : Elapsed :=
  ⟨(n : Rat) / d, div_nonneg (Nat.cast_nonneg n) (Nat.cast_nonneg d)⟩

abbrev s0 : State := State.reset

/-! ### Well-formedness: each check refuses an ill-formed term -/

theorem test_wf_refuses_listed_word : (Instr.unlisted 0x00E0).wf .full12 = false := by decide
theorem test_wf_refuses_scd_word : (Instr.unlisted 0x00C7).wf .full12 = false := by decide
theorem test_wf_refuses_family8_word : (Instr.unlisted 0x8014).wf .full12 = false := by decide
theorem test_wf_refuses_familyE_word : (Instr.unlisted 0xE19E).wf .full12 = false := by decide
theorem test_wf_refuses_familyF_word : (Instr.unlisted 0xF20A).wf .full12 = false := by decide
theorem test_wf_refuses_one_opcode_family : (Instr.unlisted 0x5011).wf .full12 = false := by decide
theorem test_wf_refuses_lowbyte_word : (Instr.unlisted 0x01E0).wf .lowByte = false := by decide
theorem test_wf_takes_unlisted_word : (Instr.unlisted 0x01E0).wf .full12 = true := by decide

/-! ### Decoding: a word of every constructor, written out from the patterns of R114 -/

theorem test_decode_cls : decode .full12 0x00E0 = .cls := by decide
theorem test_decode_ret : decode .full12 0b0000000011101110 = .ret := by decide
theorem test_decode_scd : decode .full12 0b0000000011000011 = .scd 3 := by decide
theorem test_decode_scr : decode .full12 0b0000000011111011 = .scr := by decide
theorem test_decode_scl : decode .full12 0b0000000011111100 = .scl := by decide
theorem test_decode_exit : decode .full12 0b0000000011111101 = .exit := by decide
theorem test_decode_low : decode .full12 0b0000000011111110 = .low := by decide
theorem test_decode_high : decode .full12 0b0000000011111111 = .high := by decide
theorem test_decode_jp : decode .full12 0b0001001000000100 = .jp 0x204 := by decide
theorem test_decode_call : decode .full12 0b0010001000001100 = .call 0x20C := by decide
theorem test_decode_seVxNn : decode .full12 0b0011001100101010 = .seVxNn 3 0x2A := by decide
theorem test_decode_sneVxNn : decode .full12 0b0100001100101011 = .sneVxNn 3 0x2B := by decide
theorem test_decode_seVxVy : decode .full12 0b0101000000010000 = .seVxVy 0 1 0 := by decide
theorem test_decode_seVxVy_ignores_n : decode .full12 0x5011 = .seVxVy 0 1 1 := by decide
theorem test_decode_ldVxNn : decode .full12 0x6103 = .ldVxNn 1 0x03 := by decide
theorem test_decode_addVxNn : decode .full12 0b0111000000000001 = .addVxNn 0 0x01 := by decide
theorem test_decode_ldVxVy : decode .full12 0b1000000000010000 = .ldVxVy 0 1 := by decide
theorem test_decode_or : decode .full12 0b1000000000010001 = .or 0 1 := by decide
theorem test_decode_and : decode .full12 0b1000000000010010 = .and 0 1 := by decide
theorem test_decode_xor : decode .full12 0b1000000000010011 = .xor 0 1 := by decide
theorem test_decode_addVxVy : decode .full12 0x8014 = .addVxVy 0 1 := by decide
theorem test_decode_sub : decode .full12 0b1000000000010101 = .sub 0 1 := by decide
theorem test_decode_shr : decode .full12 0b1000000000010110 = .shr 0 1 := by decide
theorem test_decode_subn : decode .full12 0b1000000000010111 = .subn 0 1 := by decide
theorem test_decode_shl : decode .full12 0b1000000000011110 = .shl 0 1 := by decide
theorem test_decode_sneVxVy : decode .full12 0b1001000000010000 = .sneVxVy 0 1 0 := by decide
theorem test_decode_ldI : decode .full12 0b1010001100000000 = .ldI 0x300 := by decide
theorem test_decode_jpV0 : decode .full12 0b1011001100000000 = .jpV0 0x300 := by decide
theorem test_decode_rnd : decode .full12 0b1100001100001111 = .rnd 3 0x0F := by decide
theorem test_decode_drw : decode .full12 0b1101000000010101 = .drw 0 1 5 := by decide
theorem test_decode_skp : decode .full12 0b1110000110011110 = .skp 1 := by decide
theorem test_decode_sknp : decode .full12 0b1110000110100001 = .sknp 1 := by decide
theorem test_decode_ldVxDt : decode .full12 0b1111001100000111 = .ldVxDt 3 := by decide
theorem test_decode_ldVxK : decode .full12 0b1111001000001010 = .ldVxK 2 := by decide
theorem test_decode_ldDtVx : decode .full12 0b1111000000010101 = .ldDtVx 0 := by decide
theorem test_decode_ldStVx : decode .full12 0b1111000000011000 = .ldStVx 0 := by decide
theorem test_decode_addIVx : decode .full12 0b1111001000011110 = .addIVx 2 := by decide
theorem test_decode_ldF : decode .full12 0b1111000000101001 = .ldF 0 := by decide
theorem test_decode_ldB : decode .full12 0b1111000000110011 = .ldB 0 := by decide
theorem test_decode_ldMemVx : decode .full12 0b1111000101010101 = .ldMemVx 1 := by decide
theorem test_decode_ldVxMem : decode .full12 0b1111000101100101 = .ldVxMem 1 := by decide
/-- SYS-2. -/
theorem test_decode_unlisted :
    [0x8008, 0x800F, 0xE000, 0xF030, 0xF075, 0xF085, 0x0000, 0x0123].all
      (fun w => decode .full12 w == .unlisted w) = true := by decide
/-- SYS-3, SYS-4: under LOWBYTE w[11:8] of family 0 is ignored. -/
theorem test_decode_lowByte : (decode .lowByte 0x01E0, decode .lowByte 0x01EE) = (.cls, .ret) := by decide
theorem test_decodeBytes_truncated : decodeBytes .full12 [0x60] = .error .truncated := by decide
theorem test_decodeBytes_rest : decodeBytes .full12 [0x60, 0x05, 0x61] = .ok (.ldVxNn 0 5, [0x61]) := by decide
theorem test_decodeTableWord : decodeTableWord 16 0xD015 = some (.drw 0 1 5) := by decide

/-! ### Control transfer (95_test_vectors.md 2.1) -/

/-- CTL-1. -/
theorem test_ret : run 0x00EE { s0 with sp := 1, stack := s0.stack.set 0 0x0204, pc := 0x020E }
    (fun t => (t.sp, t.pc)) = some (0, 0x0206) := by decide
/-- S8-7, CTL-2. -/
theorem test_ret_underflow : (match step (s0.withFetchWord 16 0x00EE) with
    | .fault f => some f | _ => none) = some (.stackUnderflow 0x200) := by decide
/-- CTL-3. -/
theorem test_jp : run 0x1204 { s0 with pc := 0x208 } (·.pc) = some 0x204 := by decide
/-- CTL-5. -/
theorem test_call : run 0x220C { s0 with pc := 0x0204 } (fun t => (t.stack[0], t.sp, t.pc))
    = some (0x0204, 1, 0x020C) := by decide
/-- CTL-6. -/
theorem test_call_overflow : (match step ({ s0 with pc := 0x300, sp := 16 }.withFetchWord 16 0x2400) with
    | .fault f => some f | _ => none) = some (.stackOverflow 0x300) := by decide
/-- CTL-7. -/
theorem test_seVxNn : (run 0x332A (regs [(3, 0x2A)] { s0 with pc := 0x300 }) (·.pc),
    run 0x332B (regs [(3, 0x2A)] { s0 with pc := 0x300 }) (·.pc)) = (some 0x304, some 0x302) := by decide
/-- CTL-8. -/
theorem test_sneVxNn : (run 0x432B (regs [(3, 0x2A)] { s0 with pc := 0x300 }) (·.pc),
    run 0x432A (regs [(3, 0x2A)] { s0 with pc := 0x300 }) (·.pc)) = (some 0x304, some 0x302) := by decide
/-- CTL-9, CTL-10. -/
theorem test_seVxVy : (run 0x5011 (regs [(0, 5), (1, 5)] { s0 with pc := 0x206 }) (·.pc),
    run 0x5010 (regs [(0, 5), (1, 6)] { s0 with pc := 0x206 }) (·.pc)) = (some 0x20A, some 0x208) := by decide
/-- CTL-11. -/
theorem test_sneVxVy : (run 0x9010 (regs [(0, 4), (1, 5)] { s0 with pc := 0x206 }) (·.pc),
    run 0x9000 (regs [(0, 4), (1, 5)] { s0 with pc := 0x206 }) (·.pc)) = (some 0x20A, some 0x208) := by decide
/-- CTL-13: the sum is kept in full, and the next fetch wraps. -/
theorem test_jpV0 : run 0xBFFF (regs [(0, 0xFF)] s0) (·.pc) = some 0x10FE := by decide
/-- CTL-13, CTL-14: a fetch above 0xFFF under WRAP. -/
theorem test_fetch_wraps : (fetchWord (bytes 0x0FE [0x12, 0x34] { s0 with pc := 0x10FE })).toOption = some 0x1234 := by
  decide

/-! ### Loads and arithmetic (2.2) -/

/-- ALU-1. -/
theorem test_ldVxNn : run 0x6AFF s0 (fun t => (t.reg 10, t.pc)) = some (0xFF, 0x202) := by decide
/-- ALU-2. -/
theorem test_addVxNn : run 0x7001 (regs [(0, 0xFF), (15, 7)] s0) (fun t => (t.reg 0, t.reg 15)) = some (0, 7) := by decide
/-- ALU-4. -/
theorem test_ldVxVy : run 0x8010 (regs [(1, 0x33)] s0) (·.reg 0) = some 0x33 := by decide
/-- ALU-5. -/
theorem test_or : run 0x8011 (regs [(0, 0x0F), (1, 0xF0), (15, 5)] s0) (fun t => (t.reg 0, t.reg 15))
    = some (0xFF, 5) := by decide
/-- ALU-6. -/
theorem test_and : run 0x8012 (regs [(0, 0x3C), (1, 0x0F)] s0) (·.reg 0) = some 0x0C := by decide
/-- ALU-7. -/
theorem test_xor : run 0x8013 (regs [(0, 0x3C), (1, 0x0F)] s0) (·.reg 0) = some 0x33 := by decide
/-- ALU-10. -/
theorem test_addVxVy : run 0x8014 (regs [(0, 0xFF), (1, 1)] s0) (fun t => (t.reg 0, t.reg 15)) = some (0, 1) := by decide
/-- ALU-12: the flag is written last. -/
theorem test_addVxVy_vF : run 0x8F14 (regs [(15, 0x10), (1, 0x20)] s0) (·.reg 15) = some 0 := by decide
/-- ALU-16. -/
theorem test_sub : run 0x8015 (regs [(0, 0), (1, 1)] s0) (fun t => (t.reg 0, t.reg 15)) = some (0xFF, 0) := by decide
/-- ALU-15. -/
theorem test_sub_equal : run 0x8015 (regs [(0, 5), (1, 5)] s0) (fun t => (t.reg 0, t.reg 15)) = some (0, 1) := by decide
/-- ALU-19, S8-5. -/
theorem test_shr : run 0x8016 (regs [(0, 5), (1, 0xAA)] s0) (fun t => (t.reg 0, t.reg 15, t.reg 1))
    = some (2, 1, 0xAA) := by decide
/-- ALU-20. -/
theorem test_shr_legacy : run 0x8016 (regs [(0, 5), (1, 0xAA)] { s0 with legacyShift := true })
    (fun t => (t.reg 0, t.reg 15, t.reg 1)) = some (0x55, 0, 0xAA) := by decide
/-- ALU-17. -/
theorem test_subn : run 0x8017 (regs [(0, 3), (1, 5)] s0) (fun t => (t.reg 0, t.reg 15)) = some (2, 1) := by decide
/-- ALU-23. -/
theorem test_shl : run 0x801E (regs [(0, 0x81)] s0) (fun t => (t.reg 0, t.reg 15)) = some (2, 1) := by decide
/-- ALU-25. -/
theorem test_shl_legacy : run 0x801E (regs [(0, 1), (1, 0x80)] { s0 with legacyShift := true })
    (fun t => (t.reg 0, t.reg 15)) = some (0, 1) := by decide
/-- ALU-26. -/
theorem test_rnd : seen (·.reg 3) (randomAnd 0xA7 3 0x0F s0) = some 0x07 := by decide

/-! ### Display (2.3) -/

/-- DRW-1 (glyph 0 at (0, 0), physical rows 0 to 9), DRW-2 (columns wrap, both rows of a block are lit), DRW-10 (a partly
set block collides). -/
theorem test_drw_low :
    run 0xD015 { s0 with i := 0x050 } (fun t =>
      ((List.range 11).map fun r => (t.fb.row r >>> 120).toNat, t.reg 15, litCount t))
      = some ([0xFF, 0xFF, 0xC3, 0xC3, 0xC3, 0xC3, 0xC3, 0xC3, 0xFF, 0xFF, 0], 0, 56) ∧
    run 0xD011 (bytes 0x300 [0xFF] (regs [(0, 62)] { s0 with i := 0x300 })) (fun t =>
      ((List.range 128).filter (t.fb.get 0), t.fb.row 0 == t.fb.row 1, litCount t))
      = some ([0, 1, 2, 3, 4, 5, 6, 7, 8, 9, 10, 11, 124, 125, 126, 127], true, 32) ∧
    run 0xD011 (lit [(1, 1)] (bytes 0x300 [0x80] { s0 with i := 0x300 }))
      (fun t => (t.fb.get 0 0, t.fb.get 0 1, t.fb.get 1 0, t.fb.get 1 1, t.reg 15))
      = some (true, true, true, false, 1) := by decide +kernel
/-- DRW-5 (rows clip and count), DRW-7 (columns wrap), DRW-8 (rows that collide count). -/
theorem test_drw_high :
    run 0xD010 (bytes 0x300 (List.replicate 32 0xFF) (regs [(1, 60)] { s0 with i := 0x300, hires := true }))
      (fun t => (t.reg 15, litCount t, t.fb.get 60 15, t.fb.get 59 0)) = some (12, 64, true, false) ∧
    run 0xD011 (bytes 0x300 [0xFF] (regs [(0, 124)] { s0 with i := 0x300, hires := true }))
      (fun t => ((List.range 128).filter (t.fb.get 0), t.reg 15)) = some ([0, 1, 2, 3, 124, 125, 126, 127], 0) ∧
    run 0xD010 (lit [(5, 3), (7, 15), (5, 20)] (bytes 0x300 (List.replicate 32 0xFF)
      { s0 with i := 0x300, hires := true })) (fun t => (t.reg 15, litCount t, t.fb.get 5 3, t.fb.get 5 20))
      = some (2, 255, false, true) := by decide +kernel
/-- DRW-12. -/
theorem test_cls : run 0x00E0 (lit [(3, 3)] { s0 with hires := true }) (fun t => (litCount t, t.hires)) = some (0, true) := by
  decide +kernel
/-- DRW-14. -/
theorem test_scd : run 0x00CF (lit [(0, 5), (48, 0), (50, 0)] s0) (fun t => (t.fb.get 15 5, t.fb.get 63 0, litCount t))
    = some (true, true, 2) := by decide +kernel
/-- DRW-16. -/
theorem test_scr : run 0x00FB (lit [(0, 0), (0, 125)] s0) (fun t => (t.fb.get 0 4, litCount t)) = some (true, 1) := by
  decide +kernel
/-- DRW-17. -/
theorem test_scl : run 0x00FC (lit [(0, 4), (0, 2)] s0) (fun t => (t.fb.get 0 0, litCount t)) = some (true, 1) := by
  decide +kernel
/-- DRW-18. -/
theorem test_low : run 0x00FE (lit [(10, 10)] { s0 with hires := true }) (fun t => (t.hires, t.fb.get 10 10))
    = some (false, true) := by decide
/-- DRW-19. -/
theorem test_high : run 0x00FF (lit [(10, 10)] s0) (fun t => (t.hires, t.fb.get 10 10)) = some (true, true) := by decide

/-! ### Address register and memory (2.4) -/

/-- IDX-1. -/
theorem test_ldI : run 0xAFFF { s0 with i := 0xF123 } (·.i) = some 0x0FFF := by decide
/-- IDX-3. -/
theorem test_addIVx : run 0xF01E (regs [(0, 1), (15, 7)] { s0 with i := 0xFFFF }) (fun t => (t.i, t.reg 15)) = some (0, 7) := by
  decide
/-- IDX-4. -/
theorem test_ldF : run 0xF029 (regs [(0, 0x0A)] s0) (·.i) = some 0x0082 := by decide
/-- IDX-5. -/
theorem test_ldF_above_F : [Config.FontIndexPolicy.full, .lowNibble, .refuse].map
    (fun p => (fontGlyphAddress p 0xFF).toOption) = [some 0x054B, some 0x009B, none] := by decide
/-- IDX-6. -/
theorem test_ldB : run 0xF033 (regs [(0, 0x7B)] { s0 with i := 0x300 })
    (fun t => ([0x300, 0x301, 0x302].map t.mem.read, t.i)) = some ([1, 2, 3], 0x300) := by decide
/-- IDX-8. -/
theorem test_ldB_wraps : run 0xF033 (regs [(0, 0x7B)] { s0 with i := 0xFFE })
    (fun t => [0xFFE, 0xFFF, 0x000].map t.mem.read) = some [1, 2, 3] := by decide
/-- IDX-9, both toggles. -/
theorem test_ldMemVx : [false, true].map (fun l => run 0xF155 (regs [(0, 0xAA), (1, 0xBB)]
    { s0 with i := 0x400, legacyMemop := l }) (fun t => ([0x400, 0x401].map t.mem.read, t.i)))
    = [some ([0xAA, 0xBB], 0x400), some ([0xAA, 0xBB], 0x402)] := by decide
/-- IDX-12. -/
theorem test_ldVxMem : run 0xFF65 (bytes 0x400 ((List.range 16).map fun k => BitVec.ofNat 8 (0x10 + k))
    { s0 with i := 0x400, legacyMemop := true }) (fun t => (t.v.toList, t.i))
    = some ((List.range 16).map fun k => BitVec.ofNat 8 (0x10 + k), 0x410) := by decide

/-! ### Keys and timers (2.5) -/

/-- KT-1, KT-4. -/
theorem test_skp : (run 0xE19E (regs [(1, 5)] (s0.setKey 5 true)) (·.pc),
    run 0xE19E (regs [(1, 0x15)] (s0.setKey 5 true)) (·.pc)) = (some 0x204, some 0x204) := by decide
/-- KT-3. -/
theorem test_sknp : run 0xE1A1 (regs [(1, 5)] s0) (·.pc) = some 0x204 := by decide
/-- KT-5. -/
theorem test_ldVxDt : run 0xF307 (s0.setDt 0x3C) (·.reg 3) = some 0x3C := by decide
/-- KT-6. -/
theorem test_ldVxK : run 0xF20A s0 (fun t => (t.awaiting, t.awaitReg, t.pc, t.reg 2)) = some (true, 2, 0x202, 0) := by decide
/-- KT-7: a step of a core that awaits a key changes nothing. -/
theorem test_step_awaiting : seen (· == s0.beginWait 2) (step (s0.beginWait 2)) = some true := by decide +kernel
/-- KT-8. -/
theorem test_ldDtVx : run 0xF015 (regs [(0, 0x3C)] s0) (fun t => (t.dt, t.st)) = some (0x3C, 0) := by decide
/-- KT-9. -/
theorem test_ldStVx : run 0xF018 (regs [(0, 5)] s0) (fun t => (t.st, t.dt)) = some (5, 0) := by decide

/-! ### System (2.6) -/

/-- SYS-1. -/
theorem test_exit : run 0x00FD { s0 with pc := 0x210 } (fun t => (t.exit, t.pc)) = some (true, 0x212) := by decide
/-- SYS-2. -/
theorem test_unlisted : run 0xF030 s0 (fun t => (t.pc, t.i, t.v == s0.v)) = some (0x202, 0, true) := by decide

/-! ### Input latch, timers, clock, reset and load (2.7 to 2.10) -/

/-- IN-3. -/
theorem test_keyPress_ends_wait : (fun t : State => (t.key[12], t.reg 4, t.awaiting)) (keyPress 0xC (s0.beginWait 4))
    = (true, 0x0C, false) := by decide
/-- IN-2. -/
theorem test_keyRelease_keeps_wait : (fun t : State => (t.key[6], t.awaiting)) (keyRelease 6 (s0.beginWait 4))
    = (false, true) := by decide
/-- IN-5: only the first press ends the wait. -/
theorem test_keyEvents_two_presses : (fun t : State => (t.reg 3, t.key[2], t.key[9], t.awaiting))
    (keyEvents [.press 2, .press 9] (s0.beginWait 3)) = (2, true, true, false) := by decide
/-- TMR-2. -/
theorem test_timerUpdate : (fun t : State => (t.dt, t.st)) (timerUpdate (time 5 60) ((s0.setDt 10).setSt 2)) = (5, 0) := by
  decide +kernel
/-- TMR-3, first half and second half. -/
theorem test_timerUpdate_half : (fun t : State => (t.dt, t.tmrAcc == 0))
    (timerUpdate (time 1 120) (timerUpdate (time 1 120) (s0.setDt 5))) = (4, true) := by decide +kernel
/-- CLK-1: 1200 at 0x200, FIXED 600 Hz, 1/60 s. -/
theorem test_clockUpdate_fixed : ((clockUpdate (time 1 60) (loadProgram [0x12, 0x00] s0)).toOption.map
    fun c => (c.steps, c.state.clkAcc == 0, c.report)) = some (10, true, none) := by decide +kernel
/-- CLK-6: a fault ends the update, FAULT is set and 9/600 s stay. -/
theorem test_clockUpdate_fault : ((clockUpdate (time 1 60) (loadProgram [0x00, 0xEE] s0)).toOption.map
    fun c => (c.steps, c.state.clkAcc == 9 / 600, c.report, c.state.fault, c.state.pc))
    = some (1, true, some (.stackUnderflow 0x200), .stackUnderflow, 0x200) := by decide +kernel
/-- CLK-3: the catch-up cap. -/
theorem test_clockUpdate_cap : ((clockUpdate (time 1 1) { loadProgram [0x12, 0x00] s0 with
    params := { defaultParams with maxCatchupCycles := 20 } }).toOption.map fun c => (c.steps, c.state.clkAcc == 0))
    = some (20, true) := by decide +kernel
/-- CLK-7. -/
theorem test_setTimingMode : (fun t : State => (t.cycleCost, t.clkAcc == 3))
    (setTimingMode .fixed { s0 with timingMode := .accurate, cycleCost := 5, clkAcc := 3 }) = (1, true) := by decide +kernel
/-- CLK-8: a faulted core is issued no step, and the timers still run. -/
theorem test_frame_faulted : ((frame [] (time 1 60) ((s0.setFault .stackOverflow).setDt 3)).toOption.map
    fun f => (f.steps, f.state.pc, f.state.dt, f.readout.fault)) = some (0, 0x200, 2, .stackOverflow) := by decide +kernel
/-- P4, frame 2: the press ends the wait before the clock runs. -/
theorem test_frame_key : ((frame [.press 7] (time 1 60)
    (loadProgram [0xF2, 0x0A, 0x63, 0x01, 0x12, 0x04] { s0.beginWait 2 with pc := 0x202 })).toOption.map
    fun f => (f.steps, f.state.reg 2, f.state.reg 3, f.state.pc, f.state.awaiting)) = some (10, 7, 1, 0x204, false) := by
  decide +kernel
/-- RST-1. -/
theorem test_reset_font : [0x050, 0x051, 0x054, 0x09B, 0x09F, 0x0A0, 0x200].map s0.mem.read
    = [0xF0, 0x90, 0xF0, 0xF0, 0x80, 0, 0] := by decide
/-- RST-3, the last bytes: the copy stops at the end of memory. -/
theorem test_load_truncates : (Memory.copyIn [] 0xFFE [1, 2, 3]).map (·.1) = [0xFFE, 0xFFF] := by decide
/-- RST-5. -/
theorem test_load : (fun t : State => ([0x200, 0x201].map t.mem.read, t.pc)) (loadProgram [0x00, 0xE0] { s0 with pc := 0x222 })
    = ([0x00, 0xE0], 0x222) := by decide

/-! ### Witnesses: states and operands that meet the hypotheses of the statements, clause by clause, at the ends of their
ranges -/

/-- A state under every REFUSE policy. -/
abbrev sRefuse : State :=
  { s0 with params := { defaultParams with oobPolicy := .refuse, keyIndexPolicy := .refuse, fontIndexPolicy := .refuse } }

/-- A state that meets the invariant and is not the reset state: waiting, in ACCURATE mode, with time pending. -/
abbrev sWait : State :=
  { s0.beginWait 3 with timingMode := .accurate, cycleCost := 100, clkAcc := 1 / 2, tmrAcc := 1 / 61 }

/-- The same state, running in FIXED mode. -/
abbrev sRun : State := { sWait with awaiting := false, timingMode := .fixed }

theorem witness_inv : Inv sWait ∧ Inv sRun := by
  constructor <;> constructor <;> decide +kernel

theorem witness_DecodeAndEncodeAgree : (Instr.drw 15 15 15).wf .full12 = true ∧ (Instr.unlisted 0x0FFF).wf .full12 = true ∧
    (Instr.unlisted 0xFFFF).wf .lowByte = true := by decide
theorem witness_DecodeFollowsOpcodeTable : tableRow (decode .full12 0x00C0) = some (0xFFF0, 0x00C0) ∧
    (0xFFF0, 0x00C0) ∈ opcodeTable ∧ rowSelects (0xFFF0, 0x00C0) 0x00CF = true := by decide
theorem witness_Family0MatchWidth : (0x0FFF : Word).toNat / 4096 = 0 ∧ (0x1000 : Word).toNat / 4096 ≠ 0 := by decide

theorem witness_StepIsFetchDecodeExecute_stops :
    (s0.setFault .stackOverflow).fault ≠ .none ∧ (s0.beginWait 0).fault = .none ∧ (s0.beginWait 0).awaiting = true := by
  decide
theorem witness_StepIsFetchDecodeExecute_next : Running (s0.withFetchWord 16 0x1200) ∧
    fetchWord (s0.withFetchWord 16 0x1200) = .ok 0x1200 ∧
    ∃ t, exec (decode .full12 0x1200) (s0.withFetchWord 16 0x1200) = .next t := ⟨⟨rfl, rfl⟩, rfl, _, rfl⟩
theorem witness_StepIsFetchDecodeExecute_fault : Running (s0.withFetchWord 16 0x00EE) ∧
    fetchWord (s0.withFetchWord 16 0x00EE) = .ok 0x00EE ∧
    exec (decode .full12 0x00EE) (s0.withFetchWord 16 0x00EE) = .fault (.stackUnderflow 0x200) := ⟨⟨rfl, rfl⟩, rfl, rfl⟩
theorem witness_StepIsFetchDecodeExecute_refused : Running ((regs [(0, 0x10)] sRefuse).withFetchWord 16 0xE09E) ∧
    fetchWord ((regs [(0, 0x10)] sRefuse).withFetchWord 16 0xE09E) = .ok 0xE09E ∧
    exec (decode .full12 0xE09E) ((regs [(0, 0x10)] sRefuse).withFetchWord 16 0xE09E) = .refused (.keyIndexRange 0x10) :=
  ⟨⟨rfl, rfl⟩, rfl, rfl⟩
theorem witness_StepIsFetchDecodeExecute_fetch : Running { sRefuse with pc := 0xFFF } ∧
    fetchWord { sRefuse with pc := 0xFFF } = .error (.addressOutOfRange 0x1000) := ⟨⟨rfl, rfl⟩, rfl⟩

theorem witness_FetchIsBigEndian : { s0 with pc := 0x051 }.readByte 0x051 = .ok 0x90 ∧
    { s0 with pc := 0x051 }.readByte 0x052 = .ok 0x90 ∧
    sRefuse.readByte 0x1000 = .error (.addressOutOfRange 0x1000) ∧ sRefuse.readByte 0xFFF = .ok 0 := ⟨rfl, rfl, rfl, rfl⟩
theorem witness_AddressFormation : s0.params.oobPolicy = .wrap ∧ sRefuse.params.oobPolicy = .refuse ∧ 4095 < 4096 ∧
    4096 ≤ 4096 := by decide
theorem witness_WriteStoresTheByteAndNothingElse : s0.mem.wf = true ∧
    ∃ t, s0.writeByte 0x1FFF 7 = .ok t := ⟨rfl, _, rfl⟩
theorem witness_ExecutedInstructionWritesCycleCost : ∀ m : TimingMode,
    Running { s0.withFetchWord 16 0x1200 with timingMode := m } ∧
    ∃ t, step { s0.withFetchWord 16 0x1200 with timingMode := m } = .next t := by
  intro m; cases m <;> exact ⟨⟨rfl, rfl⟩, _, rfl⟩
theorem witness_DrawsAndClockAreInvisible : (∀ x nn, Instr.cls ≠ .rnd x nn) ∧
    Config.randByte 0 = Config.randByte s0.randDraws := ⟨fun _ _ => Instr.noConfusion, rfl⟩
theorem witness_RegisterWriters : ∃ t, exec (.addVxVy 14 15) s0 = .next t ∧ (0 : RegIx) ∉ registerWrites s0 (.addVxVy 14 15) :=
  ⟨_, rfl, by decide⟩

/-- Each clause of `WritersOfEachStateItem` that has a hypothesis of its own. -/
theorem witness_WritersOfEachStateItem :
    seen (·.i) (exec (.ldI 0xFFF) s0) = some 0xFFF ∧
    seen (fun t => (t.sp, t.stack[15])) (exec (.call 0) { s0 with sp := 15 }) = some (16, 0x200) ∧
    seen (fun t => t.fb.get 63 127) (exec .cls (lit [(63, 127)] s0)) = some false ∧ (lit [(63, 127)] s0).fb.get 63 127 = true ∧
    seen (·.hires) (exec .high s0) = some true ∧ seen (·.dt) (exec (.ldDtVx 0) (regs [(0, 255)] s0)) = some 255 ∧
    seen (·.st) (exec (.ldStVx 0) (regs [(0, 255)] s0)) = some 255 ∧
    seen (·.awaiting) (exec .cls (s0.beginWait 1)) = some true ∧
    seen (fun t => (t.awaiting, t.awaitReg)) (exec (.ldVxK 15) s0) = some (true, 15) := by decide +kernel
theorem witness_MemoryWriters : s0.mem.wf = true ∧
    seen (fun t => t.mem.read 0x001) (exec (.ldB 0) (regs [(0, 255)] { s0 with i := 0xFFF })) = some 5 ∧
    seen (fun t => t.mem.read 0x00E) (exec (.ldMemVx 15) (regs [(15, 9)] { s0 with i := 0xFFF })) = some 9 := by decide
theorem witness_ExitFlagIsSetOnlyByExit : (∃ t, exec .exit s0 = .next t) ∧ ∃ t, exec .cls s0.setExit = .next t :=
  ⟨⟨_, rfl⟩, _, rfl⟩
theorem witness_ProgramCounterDiscipline : (∃ t, exec .cls { s0 with pc := 0xFFFF } = .next t) ∧
    ∃ t, exec (.seVxNn 0 0) { s0 with pc := 0xFFFE } = .next t := ⟨⟨_, rfl⟩, _, rfl⟩
theorem witness_StepsGoOnWithoutRefusePolicies : Running s0 ∧ NoRefusePolicy s0.params :=
  ⟨⟨rfl, rfl⟩, rfl, rfl, by decide⟩
theorem witness_FaultIsPreciseAndFinal : Running (s0.withFetchWord 16 0x00EE) ∧
    step (s0.withFetchWord 16 0x00EE) = .fault (.stackUnderflow 0x200) ∧
    step ({ s0 with sp := 16 }.withFetchWord 16 0x2FFF) = .fault (.stackOverflow 0x200) := ⟨⟨rfl, rfl⟩, rfl, rfl⟩

theorem witness_CallPushesItsOwnAddress : (0x2FFF : Word).toNat = 0x2000 + (0xFFF : Imm12).toNat ∧
    { s0 with sp := 15 }.sp.val < 16 ∧ { s0 with sp := 16 }.sp.val = 16 := by decide
theorem witness_ReturnPopsPastTheCall : s0.sp.val = 0 ∧ 0 < { s0 with sp := 1 }.sp.val ∧
    s0.stack[{ s0 with sp := 1 }.sp.val - 1]? = some 0 ∧ s0.stack[{ s0 with sp := 16 }.sp.val - 1]? = some 0 := by decide
theorem witness_CallThenReturnComesBack : { s0 with sp := 15 }.sp.val < 16 := by decide
theorem witness_KeySkips : (0 : RegIx).val = ((regs [(0, 0xF0)] s0).reg 0).toNat % 16 ∧ s0.params.keyIndexPolicy = .lowNibble ∧
    (15 : RegIx).val = ((regs [(0, 0xF)] sRefuse).reg 0).toNat % 16 ∧ ((regs [(0, 0xF)] sRefuse).reg 0).toNat ≤ 0xF ∧
    sRefuse.params.keyIndexPolicy = .refuse ∧ 0xF < ((regs [(0, 0x10)] sRefuse).reg 0).toNat := by decide
theorem witness_LoadsCopiesAndAddImmediate : (0x6FFF : Word).toNat = 0x6000 + 256 * (15 : RegIx).val + (0xFF : Byte).toNat ∧
    (0x7000 : Word).toNat = 0x7000 + 256 * (0 : RegIx).val + (0 : Byte).toNat ∧
    (0x8FF0 : Word).toNat = 0x8000 + 256 * (15 : RegIx).val + 16 * (15 : RegIx).val := by decide
theorem witness_AddWithCarry : (14 : RegIx) ≠ vF := by decide
theorem witness_SubtractWithBorrow : (0 : RegIx) ≠ vF := by decide
theorem witness_ShiftsByOne : (0x81 : Byte) = (if (regs [(0, 0x81)] s0).legacyShift then (regs [(0, 0x81)] s0).reg 1
      else (regs [(0, 0x81)] s0).reg 0) ∧
    (fun s : State => (0x81 : Byte) = (if s.legacyShift then s.reg 1 else s.reg 0) ∧ s.legacyShift = true ∧
      s.params.legacyShiftWritesVy = true ∧ (1 : RegIx) ≠ vF)
      { regs [(1, 0x81)] s0 with legacyShift := true, params := { defaultParams with legacyShiftWritesVy := true } } := by
  decide

theorem witness_DrawLowResolution : s0.hires = false ∧ Reachable { sRefuse with i := 0xFF1 } 0xFF1 15 ∧
    ¬Reachable { sRefuse with i := 0xFF2 } 0xFF2 15 ∧ Reachable { s0 with i := 0xFFFF } 0xFFFF 15 := by
  unfold Reachable; decide
theorem witness_DrawHighResolution : (s0.setHires true).hires = true ∧ spriteLength (s0.setHires true) 0 0 = 32 ∧
    Reachable sRefuse 0xFE0 32 ∧ ¬Reachable sRefuse 0xFE1 32 := by
  unfold Reachable; decide
/-- A first draw that goes on and meets no set bit, in either mode: the screen is clear. -/
theorem witness_SecondDrawRestores : ∀ h : Bool, (0 : RegIx) ≠ vF ∧ (1 : RegIx) ≠ vF ∧
    (∃ t, exec (.drw 0 1 5) { s0 with hires := h, i := 0x050 } = .next t) ∧
    ∀ r c, r < 64 → c < 128 → { s0 with hires := h, i := 0x050 }.fb.get r c = true → False := by
  intro h
  refine ⟨by decide, by decide, ?_, fun r c hr _ hg => ?_⟩
  · cases h with
    | false => exact ⟨_, exec_drw_low _ 0 1 5 rfl fun e => nomatch e⟩
    | true => exact ⟨_, exec_drw_high _ 0 1 5 rfl fun e => nomatch e⟩
  · simp [Framebuffer.get, hr, State.reset] at hg

theorem witness_IndexRegisterLoads : ((regs [(0, 0xF)] sRefuse).reg 0).toNat ≤ 0xF ∧ s0.params.fontIndexPolicy = .full ∧
    0xF < ((regs [(0, 0x10)] s0).reg 0).toNat ∧
    { s0 with params := { defaultParams with fontIndexPolicy := .lowNibble } }.params.fontIndexPolicy = .lowNibble ∧
    sRefuse.params.fontIndexPolicy = .refuse := by decide
theorem witness_StoreDecimalDigits : s0.mem.wf = true ∧ Reachable sRefuse 0xFFD 3 ∧ ¬Reachable sRefuse 0xFFE 3 ∧
    memIndex .refuse 0xFFD = .ok 0xFFD ∧ memIndex .refuse (0xFFD + 1) = .ok 0xFFE ∧ memIndex .refuse (0xFFD + 2) = .ok 0xFFF ∧
    memIndex .wrap (0xFFE + 2) = .ok 0 := by
  refine ⟨rfl, ?_, ?_, rfl, rfl, rfl, rfl⟩ <;> unfold Reachable <;> decide
theorem witness_StoreRegisterBlock : s0.mem.wf = true ∧ Reachable sRefuse 0xFF0 16 ∧ ¬Reachable sRefuse 0xFF1 16 ∧
    (15 : RegIx) ≤ 15 ∧ memIndex .refuse (0xFF0 + (15 : RegIx).val) = .ok 0xFFF ∧
    s0.legacyMemop = false ∧ { s0 with legacyMemop := true }.legacyMemop = true ∧
    s0.params.legacyMemopIncrement = .xPlusOne ∧
    { s0 with params := { defaultParams with legacyMemopIncrement := .x } }.params.legacyMemopIncrement = .x := by
  refine ⟨rfl, ?_, ?_, by decide, rfl, rfl, rfl, rfl, rfl⟩ <;> unfold Reachable <;> decide
theorem witness_LoadRegisterBlock : Reachable sRefuse 0xFFF ((0 : RegIx).val + 1) ∧
    ¬Reachable sRefuse 0x1000 ((0 : RegIx).val + 1) ∧ (0 : RegIx) < 1 ∧ memIndex .refuse (0xFFF + (0 : RegIx).val) = .ok 0xFFF := by
  refine ⟨?_, ?_, by decide, rfl⟩ <;> unfold Reachable <;> decide

theorem witness_TimerRegisterMoves : (0xFF07 : Word).toNat = 0xF007 + 256 * (15 : RegIx).val ∧
    (0xFF15 : Word).toNat = 0xF015 + 256 * (15 : RegIx).val ∧ (0xF018 : Word).toNat = 0xF018 + 256 * (0 : RegIx).val := by
  decide
theorem witness_AwaitKeySuspends : s0.fault = .none := rfl
theorem witness_OnlyAPressEndsTheWait : (s0.beginWait 15).awaiting = true ∧ (s0.beginWait 15).fault = .none ∧
    fetchWord (keyPress 15 (s0.beginWait 15)) = .ok 0 := ⟨rfl, rfl, rfl⟩
theorem witness_KeyPressSetsTheLatch : s0.awaiting = false ∧ (s0.beginWait 0).awaiting = true ∧ (0 : RegIx) ≠ 15 := by decide
theorem witness_KeyReleaseClearsTheLatch : (0 : RegIx) ≠ 15 := by decide
theorem witness_ExitSetsTheFlagAndGoesOn : Running (s0.withFetchWord 16 0x00FD) ∧
    fetchWord (s0.withFetchWord 16 0x00FD) = .ok 0x00FD := ⟨⟨rfl, rfl⟩, rfl⟩
theorem witness_UnlistedWordOnlyAdvances : s0.params.family0Match = .full12 ∧
    (∀ row ∈ opcodeTable, rowSelects row 0x0FFF = false) ∧ Running (s0.withFetchWord 16 0x0FFF) ∧
    fetchWord (s0.withFetchWord 16 0x0FFF) = .ok 0x0FFF :=
  ⟨rfl, by simpa using List.all_eq_true.mp (by decide : opcodeTable.all (fun row => !rowSelects row 0x0FFF) = true),
    ⟨rfl, rfl⟩, rfl⟩

theorem witness_TimerUpdateCountsDown : 0 ≤ sRun.tmrAcc ∧ ((2 : Nat) : Int) = ((sRun.tmrAcc + (time 2 60).val) * 60).floor := by
  decide +kernel
theorem witness_TimerReachesZeroOnTime : 0 ≤ (sRun.setDt 255).tmrAcc ∧ (sRun.setDt 255).tmrAcc < 1 / 60 ∧
    (sRun.setDt 255).dt ≠ 0 := by decide +kernel
/-- A clock update that issues steps and reports no fault, from a state that meets the invariant. -/
theorem witness_ClockUpdate : (clockUpdate (time 1 60) sRun).toOption.map (·.report) = some none ∧ sRun.fault = .none := by
  decide +kernel
/-- The same in ACCURATE mode (R321, R324): a waiting core whose pending cost is 30 cycles of 1/1000 s. The 100 cycles of the
cap pay for three of its steps and not for a fourth. -/
theorem witness_ClockUpdateStepCount_accurate :
    Inv { sWait with cycleCost := 30 } ∧ sWait.fault = .none ∧ sWait.timingMode = .accurate ∧
    (clockUpdate (time 1 60) { sWait with cycleCost := 30 }).toOption.map (fun c => (c.report, c.steps, c.state.clkAcc))
      = some (none, 3, 1 / 100) ∧
    chargedCycles 3 { sWait with cycleCost := 30 } = 90 := by
  refine ⟨?_, ?_⟩
  · constructor <;> decide +kernel
  · decide +kernel
/-- And in a running core in ACCURATE mode, where one cycle is all the cap allows; and where the one step issued faults. -/
theorem witness_ClockUpdateStepCount_running :
    let s : State := { sRun with timingMode := .accurate, cycleCost := 1, params := { defaultParams with maxCatchupCycles := 1 } }
    Inv s ∧ s.fault = .none ∧ (clockUpdate (time 1 60) s).toOption.map (fun c => (c.report, c.steps)) = some (none, 1) ∧
    Inv (s.withFetchWord 16 0x00EE) ∧ (s.withFetchWord 16 0x00EE).fault = .none ∧
    (clockUpdate (time 1 60) (s.withFetchWord 16 0x00EE)).toOption.map (fun c => (c.report, c.steps))
      = some (some (.stackUnderflow 0x200), 1) := by
  refine ⟨?_, ?_, ?_, ?_, ?_, ?_⟩
  · constructor <;> decide +kernel
  · decide +kernel
  · decide +kernel
  · constructor <;> decide +kernel
  · decide +kernel
  · decide +kernel
theorem witness_ClockUpdateStopsAtAFault :
    (clockUpdate (time 1 60) (s0.setFault .stackOverflow)).toOption.map (·.steps) = some 0 ∧
    (clockUpdate (time 1 60) (s0.withFetchWord 16 0x00EE)).toOption.map (·.report) = some (some (.stackUnderflow 0x200)) := by
  decide +kernel
theorem witness_LoadProgramCopiesAndTruncates : s0.mem.wf = true ∧ 3583 < (List.replicate 3585 (1 : Byte)).length ∧
    0x200 + 3583 < 4096 ∧ 0x200 + (List.replicate 3584 (1 : Byte)).length ≤ 4096 := by
  rw [List.length_replicate, List.length_replicate]; decide
theorem witness_ConstructionState : defaultFont.length = 80 := by decide
theorem witness_CycleRateChange : 0 < s0.params.maxCycleRate ∧ s0.params.maxCycleRate ≤ s0.params.maxCycleRate ∧
    s0.params.maxCycleRate < s0.params.maxCycleRate + 1 ∧ s0.timingMode = .fixed := by decide +kernel
theorem witness_TimingModeChange : TimingMode.accurate ≠ s0.timingMode := by decide
theorem witness_ReadoutShowsTheFramebuffer : s0.hires = false ∧ (s0.setHires true).hires = true ∧ 63 < 64 ∧ 127 < 128 := by
  decide
theorem witness_StepKeepsInvariant : Inv sWait ∧ ∃ t, step sWait = .next t := ⟨witness_inv.1, _, rfl⟩
theorem witness_HostActionsKeepInvariant : Inv sRun ∧ (HostAction.setCycleRate 1).Dutiful ∧
    ∃ t, hostAction (.setCycleRate 1) sRun = .ok t := ⟨witness_inv.2, by unfold HostAction.Dutiful; norm_num, _, rfl⟩

end Sys2Proof.Tests
end

section
/-! SUPPORT. What each instruction that goes on writes, once: the state it answers, and the state items it may change
(spec 10_state.md R32 to R50). The statements about writers follow from these. -/

namespace Sys2Proof.Machine

variable {i : Instr} {s t u : State} {ps : List Part}

/-! ### The next state of an instruction

`exec_eq_next` serves the instructions that always go on, by their equations in Laws/Exec.lean; one lemma each serves those
that may fault or be refused. -/

/-- An instruction has one next state. -/
theorem exec_eq_next (hu : exec i s = .next u) (ht : exec i s = .next t) : t = u := by
  rw [hu] at ht
  injection ht with h
  exact h.symm

theorem exec_ret_next (h : exec .ret s = .next t) :
    ∃ hs : 0 < s.sp.val,
      t = { s with sp := ⟨s.sp.val - 1, by omega⟩, pc := s.stack[s.sp.val - 1]'(by omega) + 2 } := by
  by_cases hs : s.sp.val = 0
  · rw [exec_ret_empty s hs] at h; exact nomatch h
  · exact ⟨by omega, exec_eq_next (exec_ret_entry s (by omega)) h⟩

theorem exec_call_next {nnn : Imm12} (h : exec (.call nnn) s = .next t) :
    ∃ hs : s.sp.val < 16,
      t = { s with stack := s.stack.set s.sp.val s.pc, sp := ⟨s.sp.val + 1, by omega⟩, pc := immAddress nnn } := by
  by_cases hs : s.sp.val = 16
  · rw [exec_call_full s nnn hs] at h; exact nomatch h
  · exact ⟨by omega, exec_eq_next (exec_call_room s nnn (by omega)) h⟩

theorem exec_skp_next {x : RegIx} (h : exec (.skp x) s = .next t) : ∃ target, t = s.setPc target := by
  rcases exec_skp_cases s x with ⟨k, _, _, hk⟩ | ⟨_, _, hr⟩
  · exact ⟨_, exec_eq_next hk h⟩
  · rw [hr] at h; exact nomatch h

theorem exec_sknp_next {x : RegIx} (h : exec (.sknp x) s = .next t) : ∃ target, t = s.setPc target := by
  rcases exec_sknp_cases s x with ⟨k, _, _, hk⟩ | ⟨_, _, hr⟩
  · exact ⟨_, exec_eq_next hk h⟩
  · rw [hr] at h; exact nomatch h

theorem exec_ldF_next {x : RegIx} (h : exec (.ldF x) s = .next t) :
    ∃ a, fontGlyphAddress s.params.fontIndexPolicy (s.reg x) = .ok a ∧ t = (s.setI a).advance := by
  rcases exec_ldF_cases s x with ⟨a, ha, hk⟩ | ⟨_, _, hr⟩
  · exact ⟨a, ha, exec_eq_next hk h⟩
  · rw [hr] at h; exact nomatch h

theorem exec_drw_next {x y : RegIx} {n : Nibble} (h : exec (.drw x y n) s = .next t) : ∃ fb f, t = s.drawn fb f := by
  rcases exec_drw_cases s x y n with ⟨fb, f, hk⟩ | ⟨_, _, _, hr⟩
  · exact ⟨fb, f, exec_eq_next hk h⟩
  · rw [hr] at h; exact nomatch h

theorem exec_ldB_next {x : RegIx} (h : exec (.ldB x) s = .next t) :
    Reachable s s.i.toNat 3 ∧ t = (s.setMem (s.mem.writeAll s.i.toNat (bcdDigits (s.reg x)))).advance := by
  by_cases hr : Reachable s s.i.toNat 3
  · exact ⟨hr, exec_eq_next (exec_ldB_reachable s x hr) h⟩
  · obtain ⟨a, _, hx⟩ := exec_ldB_unreachable s x hr
    rw [hx] at h; exact nomatch h

theorem exec_ldMemVx_next {x : RegIx} (h : exec (.ldMemVx x) s = .next t) :
    Reachable s s.i.toNat (x.val + 1) ∧
      t = ((s.setMem (s.mem.writeAll s.i.toNat (regBlock s x))).afterMemop x).advance := by
  by_cases hr : Reachable s s.i.toNat (x.val + 1)
  · exact ⟨hr, exec_eq_next (exec_ldMemVx_reachable s x hr) h⟩
  · obtain ⟨a, _, hx⟩ := exec_ldMemVx_unreachable s x hr
    rw [hx] at h; exact nomatch h

theorem exec_ldVxMem_next {x : RegIx} (h : exec (.ldVxMem x) s = .next t) :
    Reachable s s.i.toNat (x.val + 1) ∧
      t = ((s.setRegsFrom 0 (blockBytes s s.i.toNat (x.val + 1))).afterMemop x).advance := by
  by_cases hr : Reachable s s.i.toNat (x.val + 1)
  · exact ⟨hr, exec_eq_next (exec_ldVxMem_reachable s x hr) h⟩
  · obtain ⟨a, _, hx⟩ := exec_ldVxMem_unreachable s x hr
    rw [hx] at h; exact nomatch h

/-! ### What a named update changes -/

theorem SamePart.trans {p : Part} (h : SamePart p s t) (h' : SamePart p t u) : SamePart p s u := by
  cases p with
  | regs | mem => exact fun a => (h' a).trans (h a)
  | await =>
    obtain ⟨h₁, h₂⟩ := h
    obtain ⟨h₁', h₂'⟩ := h'
    exact ⟨h₁'.trans h₁, h₂'.trans h₂⟩
  | config =>
    obtain ⟨h₁, h₂, h₃, h₄⟩ := h
    obtain ⟨h₁', h₂', h₃', h₄'⟩ := h'
    exact ⟨h₁'.trans h₁, h₂'.trans h₂, h₃'.trans h₃, h₄'.trans h₄⟩
  | _ => exact Eq.trans h' h

/-- The general registers, stack entries and other state items an instruction may change beside pc (R32, R35, R36, R38 to
R41, R43, R45; I of FX55 and FX65 by LEGACY_MEMOP, R244). -/
def itemsWritten (s : State) : Instr → List Part
  | .ldVxNn _ _ | .addVxNn _ _ | .ldVxVy _ _ | .or _ _ | .and _ _ | .xor _ _ | .ldVxDt _ => [.regs]
  | .addVxVy _ _ | .sub _ _ | .subn _ _ | .shr _ _ | .shl _ _ => [.regs]
  | .rnd _ _ => [.regs, .draws]
  | .drw _ _ _ => [.fb, .regs]
  | .cls | .scd _ | .scr | .scl => [.fb]
  | .low | .high => [.hires]
  | .ret => [.sp]
  | .call _ => [.sp, .stack]
  | .ldI _ | .addIVx _ | .ldF _ => [.i]
  | .ldB _ => [.mem]
  | .ldMemVx _ => .mem :: if s.legacyMemop then [.i] else []
  | .ldVxMem _ => .regs :: if s.legacyMemop then [.i] else []
  | .ldVxK _ => [.await]
  | .ldDtVx _ => [.dt]
  | .ldStVx _ => [.st]
  | .exit => [.exit]
  | .jp _ | .jpV0 _ | .seVxNn _ _ | .sneVxNn _ _ | .seVxVy _ _ _ | .sneVxVy _ _ _ | .skp _ | .sknp _ | .unlisted _ => []

namespace ChangesOnly

theorem refl (s : State) : ChangesOnly ps s s := by
  intro p _
  cases p <;> simp [SamePart]

/-- A further update that changes part `q` alone, `q` being one of the parts that may change. -/
theorem update (h : ChangesOnly ps s t) {q : Part} (hq : q ∈ ps) (hu : ∀ p, p ≠ q → SamePart p t u) :
    ChangesOnly ps s u :=
  fun p hp => (h p hp).trans (hu p fun e => hp (e ▸ hq))

/-! One rule per named update: it may follow where its part may change. The side condition is read off `itemsWritten`. -/

variable (h : ChangesOnly ps s t)
include h

theorem setReg {x : RegIx} {b : Byte} (hq : .regs ∈ ps := by simp [itemsWritten]) : ChangesOnly ps s (t.setReg x b) :=
  h.update hq fun p hp => by cases p <;> simp_all [SamePart]

theorem setPc {a : Word} (hq : .pc ∈ ps := by simp) : ChangesOnly ps s (t.setPc a) :=
  h.update hq fun p hp => by cases p <;> simp_all [SamePart]

theorem advance (hq : .pc ∈ ps := by simp) : ChangesOnly ps s t.advance := h.setPc hq

theorem setSp {n : Fin 17} (hq : .sp ∈ ps := by simp [itemsWritten]) : ChangesOnly ps s { t with sp := n } :=
  h.update hq fun p hp => by cases p <;> simp_all [SamePart, State.reg_eq]

theorem setStack {v : Vector Word 16} (hq : .stack ∈ ps := by simp [itemsWritten]) :
    ChangesOnly ps s { t with stack := v } :=
  h.update hq fun p hp => by cases p <;> simp_all [SamePart, State.reg_eq]

theorem setI {a : Word} (hq : .i ∈ ps := by simp [itemsWritten]) : ChangesOnly ps s (t.setI a) :=
  h.update hq fun p hp => by cases p <;> simp_all [SamePart]

theorem setDt {b : Byte} (hq : .dt ∈ ps := by simp [itemsWritten]) : ChangesOnly ps s (t.setDt b) :=
  h.update hq fun p hp => by cases p <;> simp_all [SamePart]

theorem setSt {b : Byte} (hq : .st ∈ ps := by simp [itemsWritten]) : ChangesOnly ps s (t.setSt b) :=
  h.update hq fun p hp => by cases p <;> simp_all [SamePart]

theorem setMem {m : Memory} (hq : .mem ∈ ps := by simp [itemsWritten]) : ChangesOnly ps s (t.setMem m) :=
  h.update hq fun p hp => by cases p <;> simp_all [SamePart]

theorem setFb {fb : Framebuffer} (hq : .fb ∈ ps := by simp [itemsWritten]) : ChangesOnly ps s (t.setFb fb) :=
  h.update hq fun p hp => by cases p <;> simp_all [SamePart]

theorem setHires {b : Bool} (hq : .hires ∈ ps := by simp [itemsWritten]) : ChangesOnly ps s (t.setHires b) :=
  h.update hq fun p hp => by cases p <;> simp_all [SamePart]

theorem beginWait {x : RegIx} (hq : .await ∈ ps := by simp [itemsWritten]) : ChangesOnly ps s (t.beginWait x) :=
  h.update hq fun p hp => by cases p <;> simp_all [SamePart]

theorem setExit (hq : .exit ∈ ps := by simp [itemsWritten]) : ChangesOnly ps s t.setExit :=
  h.update hq fun p hp => by cases p <;> simp_all [SamePart]

theorem countDraw (hq : .draws ∈ ps := by simp [itemsWritten]) : ChangesOnly ps s t.countDraw :=
  h.update hq fun p hp => by cases p <;> simp_all [SamePart]

theorem setRegsFrom {k : Nat} {bs : List Byte} (hq : .regs ∈ ps := by simp [itemsWritten]) :
    ChangesOnly ps s (t.setRegsFrom k bs) := by
  induction bs generalizing t k with
  | nil => exact h
  | cons b bs ih =>
    unfold State.setRegsFrom
    split
    · exact ih (h.setReg hq)
    · exact h

theorem afterMemop {x : RegIx} (hq : t.legacyMemop = true → .i ∈ ps) : ChangesOnly ps s (t.afterMemop x) := by
  unfold State.afterMemop
  split
  case isTrue hl => exact h.setI (hq hl)
  case isFalse => exact h

theorem shifted {x y : RegIx} {b : Byte} {out : Bool} (hr : .regs ∈ ps := by simp [itemsWritten])
    (hq : .pc ∈ ps := by simp) : ChangesOnly ps s (shifted t x y b out) := by
  unfold Machine.shifted
  split
  · exact (((h.setReg hr).setReg hr).setReg hr).advance hq
  · exact ((h.setReg hr).setReg hr).advance hq

end ChangesOnly

/-! ### What an instruction changes -/

/-- An instruction that goes on changes pc and the items listed for it, nothing else. -/
theorem exec_changesOnly (h : exec i s = .next t) : ChangesOnly (.pc :: itemsWritten s i) s t := by
  have h0 : ChangesOnly (.pc :: itemsWritten s i) s s := .refl s
  cases i with
  | cls => rw [exec_eq_next (exec_cls s) h]; exact h0.setFb.advance
  | ret =>
    obtain ⟨hs, rfl⟩ := exec_ret_next h
    have hpop := h0.setSp (n := ⟨s.sp.val - 1, by omega⟩)
    exact hpop.setPc (a := s.stack[s.sp.val - 1]'(by omega) + 2)
  | scd n => rw [exec_eq_next (exec_scd s n) h]; exact h0.setFb.advance
  | scr => rw [exec_eq_next (exec_scr s) h]; exact h0.setFb.advance
  | scl => rw [exec_eq_next (exec_scl s) h]; exact h0.setFb.advance
  | exit => rw [exec_eq_next (exec_exit s) h]; exact h0.setExit.advance
  | low => rw [exec_eq_next (exec_low s) h]; exact h0.setHires.advance
  | high => rw [exec_eq_next (exec_high s) h]; exact h0.setHires.advance
  | jp nnn => rw [exec_eq_next (exec_jp s nnn) h]; exact h0.setPc
  | call nnn =>
    obtain ⟨hs, rfl⟩ := exec_call_next h
    have hpush := (h0.setStack (v := s.stack.set s.sp.val s.pc)).setSp (n := ⟨s.sp.val + 1, by omega⟩)
    exact hpush.setPc (a := immAddress nnn)
  | seVxNn x nn => rw [exec_eq_next (exec_seVxNn s x nn) h]; exact h0.setPc
  | sneVxNn x nn => rw [exec_eq_next (exec_sneVxNn s x nn) h]; exact h0.setPc
  | seVxVy x y n => rw [exec_eq_next (exec_seVxVy s x y n) h]; exact h0.setPc
  | sneVxVy x y n => rw [exec_eq_next (exec_sneVxVy s x y n) h]; exact h0.setPc
  | ldVxNn x nn => rw [exec_eq_next (exec_ldVxNn s x nn) h]; exact h0.setReg.advance
  | addVxNn x nn => rw [exec_eq_next (exec_addVxNn s x nn) h]; exact h0.setReg.advance
  | ldVxVy x y => rw [exec_eq_next (exec_ldVxVy s x y) h]; exact h0.setReg.advance
  | or x y => rw [exec_eq_next (exec_or s x y) h]; exact h0.setReg.advance
  | and x y => rw [exec_eq_next (exec_and s x y) h]; exact h0.setReg.advance
  | xor x y => rw [exec_eq_next (exec_xor s x y) h]; exact h0.setReg.advance
  | addVxVy x y => rw [exec_eq_next (exec_addVxVy s x y) h]; exact h0.setReg.setReg.advance
  | sub x y => rw [exec_eq_next (exec_sub s x y) h]; exact h0.setReg.setReg.advance
  | subn x y => rw [exec_eq_next (exec_subn s x y) h]; exact h0.setReg.setReg.advance
  | shr x y => rw [exec_eq_next (exec_shr s x y) h]; exact h0.shifted
  | shl x y => rw [exec_eq_next (exec_shl s x y) h]; exact h0.shifted
  | ldI nnn => rw [exec_eq_next (exec_ldI s nnn) h]; exact h0.setI.advance
  | jpV0 nnn => rw [exec_eq_next (exec_jpV0 s nnn) h]; exact h0.setPc
  | rnd x nn => rw [exec_eq_next (exec_rnd s x nn) h]; exact h0.setReg.countDraw.advance
  | drw x y n => obtain ⟨fb, f, rfl⟩ := exec_drw_next h; exact h0.setFb.setReg.advance
  | skp x => obtain ⟨target, rfl⟩ := exec_skp_next h; exact h0.setPc
  | sknp x => obtain ⟨target, rfl⟩ := exec_sknp_next h; exact h0.setPc
  | ldVxDt x => rw [exec_eq_next (exec_ldVxDt s x) h]; exact h0.setReg.advance
  | ldVxK x => rw [exec_eq_next (exec_ldVxK s x) h]; exact h0.beginWait.advance
  | ldDtVx x => rw [exec_eq_next (exec_ldDtVx s x) h]; exact h0.setDt.advance
  | ldStVx x => rw [exec_eq_next (exec_ldStVx s x) h]; exact h0.setSt.advance
  | addIVx x => rw [exec_eq_next (exec_addIVx s x) h]; exact h0.setI.advance
  | ldF x => obtain ⟨a, _, rfl⟩ := exec_ldF_next h; exact h0.setI.advance
  | ldB x => obtain ⟨_, rfl⟩ := exec_ldB_next h; exact h0.setMem.advance
  | ldMemVx x =>
    obtain ⟨_, rfl⟩ := exec_ldMemVx_next h
    exact (h0.setMem.afterMemop fun hl => by simp_all [itemsWritten]).advance
  | ldVxMem x =>
    obtain ⟨_, rfl⟩ := exec_ldVxMem_next h
    refine (h0.setRegsFrom.afterMemop fun hl => ?_).advance
    rw [setRegsFrom_eq] at hl
    simp_all [itemsWritten]
  | unlisted w => rw [exec_eq_next (exec_unlisted s w) h]; exact h0.advance

/-- A part other than pc that an instruction changed is on the instruction's list. -/
theorem exec_part_written (h : exec i s = .next t) (p : Part) (hne : ¬SamePart p s t) (hp : p ≠ .pc := by simp) :
    p ∈ itemsWritten s i := by
  by_contra hm
  exact hne (exec_changesOnly h p (by simp [hp, hm]))

/-! ### The writers of each item -/

theorem i_mem_itemsWritten (h : .i ∈ itemsWritten s i) : (∃ nnn, i = .ldI nnn) ∨ (∃ x, i = .addIVx x ∨ i = .ldF x) ∨
    (s.legacyMemop = true ∧ ∃ x, i = .ldMemVx x ∨ i = .ldVxMem x) := by
  cases i <;> simp_all [itemsWritten]

theorem stack_mem_itemsWritten (h : .stack ∈ itemsWritten s i) : ∃ nnn, i = .call nnn := by
  cases i <;> simp_all [itemsWritten]

theorem sp_mem_itemsWritten (h : .sp ∈ itemsWritten s i) : i = .ret ∨ ∃ nnn, i = .call nnn := by
  cases i <;> simp_all [itemsWritten]

theorem fb_mem_itemsWritten (h : .fb ∈ itemsWritten s i) :
    i = .cls ∨ (∃ x y n, i = .drw x y n) ∨ (∃ n, i = .scd n) ∨ i = .scr ∨ i = .scl := by
  cases i <;> simp_all [itemsWritten]

theorem hires_mem_itemsWritten (h : .hires ∈ itemsWritten s i) : i = .low ∨ i = .high := by
  cases i <;> simp_all [itemsWritten]

theorem dt_mem_itemsWritten (h : .dt ∈ itemsWritten s i) : ∃ x, i = .ldDtVx x := by
  cases i <;> simp_all [itemsWritten]

theorem st_mem_itemsWritten (h : .st ∈ itemsWritten s i) : ∃ x, i = .ldStVx x := by
  cases i <;> simp_all [itemsWritten]

theorem await_mem_itemsWritten (h : .await ∈ itemsWritten s i) : ∃ x, i = .ldVxK x := by
  cases i <;> simp_all [itemsWritten]

theorem exit_mem_itemsWritten (h : .exit ∈ itemsWritten s i) : i = .exit := by
  cases i <;> simp_all [itemsWritten]

/-- A wait that an instruction touched is the one FX0A began (R43, R44). -/
theorem exec_await_cases (h : exec i s = .next t) : SamePart .await s t ∨
    ∃ x, i = .ldVxK x ∧ t.awaiting = true ∧ t.awaitReg = x := by
  by_cases hs : SamePart .await s t
  · exact .inl hs
  · obtain ⟨x, rfl⟩ := await_mem_itemsWritten (exec_part_written h .await hs)
    obtain rfl := exec_eq_next (exec_ldVxK s x) h
    exact .inr ⟨x, rfl, rfl, rfl⟩

/-- The items only the host, the clock or a fault writes (R42, R46 to R50) are the same after every instruction. -/
theorem exec_keeps_hostItems (h : exec i s = .next t) :
    ∀ p ∈ [Part.key, .config, .params, .clkAcc, .tmrAcc, .cycleCost, .fault], SamePart p s t := by
  rw [exec_next_shape h]
  simp [SamePart]

/-! ### The general registers -/

theorem RegsOnly.setReg {rs : List RegIx} (h : RegsOnly rs s t) {x : RegIx} {b : Byte}
    (hx : x ∈ rs := by simp [registerWrites]) : RegsOnly rs s (t.setReg x b) := by
  intro r hr
  rw [State.setReg_reg_ne t x b r fun e => hr (e ▸ hx)]
  exact h r hr

/-- An instruction without the register file among its items writes no register. -/
theorem regsOnly_of_not_mem {rs : List RegIx} (h : exec i s = .next t) (hm : .regs ∉ itemsWritten s i) : RegsOnly rs s t :=
  fun r _ => exec_changesOnly h .regs (by simp [hm]) r

/-- A shift writes only the registers listed for it, the same for either direction (R178, R180, D9). -/
theorem regsOnly_shifted {x y : RegIx} {b : Byte} {out : Bool} :
    RegsOnly (registerWrites s (.shr x y)) s (shifted s x y b out) := by
  intro r hr
  rw [shifted_reg]
  simp only [registerWrites] at hr
  split at hr <;> simp_all

/-- A block of X + 1 bytes loads V0 to VX alone (R245). -/
theorem regsOnly_ldVxMem {x : RegIx} {bs : List Byte} (hl : bs.length = x.val + 1) :
    RegsOnly (registerWrites s (.ldVxMem x)) s ((s.setRegsFrom 0 bs).afterMemop x).advance := by
  intro r hr
  have hx : x.val < r.val := by simpa [registerWrites] using hr
  rw [State.afterMemop_eq, State.advance_reg, State.setI_reg, setRegsFrom_reg, if_neg (by omega)]

end Sys2Proof.Machine
end

section
/-! The statements of the family 10_state.md about which instruction writes what. -/

namespace Sys2Proof.Machine

/-- Settles O12: the writers of a register, one by one; the other instructions do not write the register file. -/
theorem registerWriters : Obligations.RegisterWriters := by
  unfold Obligations.RegisterWriters
  intro i s t h
  have h0 : RegsOnly (registerWrites s i) s s := fun _ _ => rfl
  cases i with
  | ldVxNn x nn => rw [exec_eq_next (exec_ldVxNn s x nn) h]; exact h0.setReg
  | addVxNn x nn => rw [exec_eq_next (exec_addVxNn s x nn) h]; exact h0.setReg
  | ldVxVy x y => rw [exec_eq_next (exec_ldVxVy s x y) h]; exact h0.setReg
  | or x y => rw [exec_eq_next (exec_or s x y) h]; exact h0.setReg
  | and x y => rw [exec_eq_next (exec_and s x y) h]; exact h0.setReg
  | xor x y => rw [exec_eq_next (exec_xor s x y) h]; exact h0.setReg
  | rnd x nn => rw [exec_eq_next (exec_rnd s x nn) h]; exact h0.setReg
  | ldVxDt x => rw [exec_eq_next (exec_ldVxDt s x) h]; exact h0.setReg
  | addVxVy x y => rw [exec_eq_next (exec_addVxVy s x y) h]; exact h0.setReg.setReg
  | sub x y => rw [exec_eq_next (exec_sub s x y) h]; exact h0.setReg.setReg
  | subn x y => rw [exec_eq_next (exec_subn s x y) h]; exact h0.setReg.setReg
  | shr x y => rw [exec_eq_next (exec_shr s x y) h]; exact regsOnly_shifted
  | shl x y => rw [exec_eq_next (exec_shl s x y) h]; exact regsOnly_shifted
  | drw x y n => obtain ⟨fb, f, rfl⟩ := exec_drw_next h; exact h0.setReg
  | ldVxMem x => obtain ⟨_, rfl⟩ := exec_ldVxMem_next h; exact regsOnly_ldVxMem (blockBytes_length ..)
  | _ => exact regsOnly_of_not_mem h (by simp [itemsWritten])

/-- Settles O13: each item that changed is one its instruction writes, and the writers of an item are read off the list. -/
theorem writersOfEachStateItem : Obligations.WritersOfEachStateItem := by
  unfold Obligations.WritersOfEachStateItem
  intro i s t h
  refine ⟨fun hne => i_mem_itemsWritten (exec_part_written h .i hne), ?stack,
    fun hne => sp_mem_itemsWritten (exec_part_written h .sp hne),
    fun hne => fb_mem_itemsWritten (exec_part_written h .fb hne),
    fun hne => hires_mem_itemsWritten (exec_part_written h .hires hne),
    fun hne => dt_mem_itemsWritten (exec_part_written h .dt hne),
    fun hne => st_mem_itemsWritten (exec_part_written h .st hne),
    ?stillAwaiting, ?await, exec_keeps_hostItems h⟩
  case stack =>
    rintro ⟨k, _, hk⟩
    exact stack_mem_itemsWritten (exec_part_written h .stack fun e => hk (congrArg (·[k]) e))
  case stillAwaiting =>
    intro ha
    rcases exec_await_cases h with ⟨hs, _⟩ | ⟨_, _, ht, _⟩
    · exact hs.trans ha
    · exact ht
  case await =>
    intro hne
    rcases exec_await_cases h with ⟨ha, hr⟩ | hw
    · exact (hne.elim (· ha) (· hr)).elim
    · exact hw

/-- Settles O15: 00FD sets the flag, and no other instruction has EXIT among the items it writes. -/
theorem exitFlagIsSetOnlyByExit : Obligations.ExitFlagIsSetOnlyByExit := by
  unfold Obligations.ExitFlagIsSetOnlyByExit
  intro i s t h
  refine ⟨?_, rfl⟩
  by_cases hi : i = .exit
  · subst hi
    obtain rfl := exec_eq_next (exec_exit s) h
    simp
  · have he : t.exit = s.exit := by
      by_contra hne
      exact hi (exit_mem_itemsWritten (exec_part_written h .exit hne))
    simp [he, hi]

end Sys2Proof.Machine
end

section
/-! SUPPORT. One byte and a block of bytes in memory: what an access within reach answers, and which bytes a store can
change (spec 20_memory.md R71, R72, R75). -/

namespace Sys2Proof.Machine

variable {i : Instr} {s t : State} {a j : Nat} {b : Byte} {bs : List Byte}

/-! ### A single byte -/

/-- Storing the same byte at the same index again lists the same cells (R75). -/
theorem Memory.write_write_same {m : Memory} (h : m.wf = true) (hj : j < memSize) :
    (m.write j b).write j b = m.write j b := by
  have hw : (m.write j b).wf = true := Memory.wf_write h hj
  refine Memory.eq_of_read_eq (Memory.wf_write hw hj) hw fun k => ?_
  by_cases hk : k = j
  · rw [hk, Memory.read_write_same hw, Memory.read_write_same h]
  · exact Memory.read_write_ne hw b hk

theorem readByte_of_memIndex (h : memIndex s.params.oobPolicy a = .ok j) : s.readByte a = .ok (s.mem.read j) := by
  simp only [State.readByte, h]

theorem writeByte_of_memIndex (h : memIndex s.params.oobPolicy a = .ok j) :
    s.writeByte a b = .ok (s.setMem (s.mem.write j b)) := by
  simp only [State.writeByte, h]

/-- A byte write that is not refused stores the byte at its address's index. -/
theorem writeByte_ok (h : s.writeByte a b = .ok t) :
    ∃ j, memIndex s.params.oobPolicy a = .ok j ∧ t = s.setMem (s.mem.write j b) := by
  rcases writeByte_cases s a b with ⟨j, hj, hs⟩ | ⟨_, _, hr⟩
  · rw [hs] at h
    injection h with h
    exact ⟨j, hj, h.symm⟩
  · rw [hr] at h; exact nomatch h

/-! ### A block of bytes -/

/-- Every address of a reachable range is mapped to its residue modulo 4096. -/
theorem Reachable.memIndex_eq {n k : Nat} (h : Reachable s a n) (hk : k < n) :
    memIndex s.params.oobPolicy (a + k) = .ok ((a + k) % memSize) := by
  induction n generalizing a k with
  | zero => exact absurd hk (Nat.not_lt_zero k)
  | succ n ih =>
    obtain ⟨hfirst, hrest⟩ := h.head
    cases k with
    | zero => exact hfirst
    | succ k =>
      rw [show a + (k + 1) = a + 1 + k by omega]
      exact ih hrest (by omega)

/-- A reachable block stored in canonical memory changes bytes at its own addresses alone. -/
theorem memOnly_of_mem_eq_writeAll (hwf : s.mem.wf = true) (hr : Reachable s a bs.length)
    (ht : t.mem = s.mem.writeAll a bs) : MemOnly a bs.length s t := by
  intro j hj
  rw [ht]
  refine Memory.read_writeAll_ne hwf fun k hk e => hj k hk ?_
  rw [hr.memIndex_eq hk, e]

/-- A byte that changed where only the block from `a` on may change is at one of the block's addresses. -/
theorem MemOnly.address_of_changed {n : Nat} (h : MemOnly a n s t) (hne : t.mem.read j ≠ s.mem.read j) :
    ∃ k, k < n ∧ memIndex s.params.oobPolicy (a + k) = .ok j := by
  by_contra hno
  exact hne (h j fun k hk e => hno ⟨k, hk, e⟩)

/-! ### The instructions that write memory -/

theorem mem_mem_itemsWritten (h : .mem ∈ itemsWritten s i) : (∃ x, i = .ldB x) ∨ (∃ x, i = .ldMemVx x) := by
  cases i <;> simp_all [itemsWritten]

theorem exec_ldB_memOnly {x : RegIx} (hwf : s.mem.wf = true) (h : exec (.ldB x) s = .next t) :
    MemOnly s.i.toNat 3 s t := by
  obtain ⟨hr, rfl⟩ := exec_ldB_next h
  exact memOnly_of_mem_eq_writeAll (bs := bcdDigits (s.reg x)) hwf hr rfl

theorem exec_ldMemVx_memOnly {x : RegIx} (hwf : s.mem.wf = true) (h : exec (.ldMemVx x) s = .next t) :
    MemOnly s.i.toNat (x.val + 1) s t := by
  obtain ⟨hr, rfl⟩ := exec_ldMemVx_next h
  rw [← regBlock_length s x] at hr ⊢
  exact memOnly_of_mem_eq_writeAll hwf hr (by simp [State.afterMemop_eq])

end Sys2Proof.Machine
end

section
/-! The statements of the family 20_memory.md about what a write stores and which instruction writes memory. -/

namespace Sys2Proof.Machine

/-- Settles O9: the write puts the byte at the address's index, where the same policy finds it again; a second write lists
the same cells because canonical memories that read alike are equal. -/
theorem writeStoresTheByteAndNothingElse : Obligations.WriteStoresTheByteAndNothingElse := by
  unfold Obligations.WriteStoresTheByteAndNothingElse
  intro s t a b hwf h
  obtain ⟨j, hj, rfl⟩ := writeByte_ok h
  have hlt : j < memSize := (memIndex_ok hj).2
  have hj' : memIndex (s.setMem (s.mem.write j b)).params.oobPolicy a = .ok j := hj
  refine ⟨?read, ?again, (ChangesOnly.refl s).setMem (by simp), ?frame, Memory.wf_write hwf hlt⟩
  case read => rw [readByte_of_memIndex hj', State.setMem_mem, Memory.read_write_same hwf]
  case again =>
    rw [writeByte_of_memIndex hj', State.setMem_mem, Memory.write_write_same hwf hlt]
    rfl
  case frame =>
    intro k hk
    have hne : k ≠ j := fun e => hk 0 Nat.one_pos (e ▸ hj)
    exact Memory.read_write_ne hwf b hne

/-- Settles O14: memory is among the items of FX33 and FX55 alone, and each stores one block from I on. -/
theorem memoryWriters : Obligations.MemoryWriters := by
  unfold Obligations.MemoryWriters
  intro i s t j hwf h hne
  rcases mem_mem_itemsWritten (exec_part_written h .mem fun hs => hne (hs j)) with ⟨x, rfl⟩ | ⟨x, rfl⟩
  · obtain ⟨k, hk, hj⟩ := (exec_ldB_memOnly hwf h).address_of_changed hne
    exact .inl ⟨x, k, rfl, hk, hj⟩
  · obtain ⟨k, hk, hj⟩ := (exec_ldMemVx_memOnly hwf h).address_of_changed hne
    exact .inr ⟨x, k, rfl, Nat.le_of_lt_succ hk, hj⟩

end Sys2Proof.Machine
end

section
/-! SUPPORT. What a fetch answers (spec 30_encoding.md R101), and the state items no instruction looks at: CLK_ACC, TMR_ACC,
CYCLE_COST, and for every instruction but CXNN the draw counter (R48, R112, R113). -/

namespace Sys2Proof.Machine

/-! ### The fetch -/

section
variable {s : State} {hi lo : Byte} {r : Refusal}

theorem fetchWord_of_bytes (hhi : s.readByte s.pc.toNat = .ok hi) (hlo : s.readByte (s.pc.toNat + 1) = .ok lo) :
    fetchWord s = .ok (wordOfBytes hi lo) := by
  simp only [fetchWord, hhi, hlo]

theorem fetchWord_of_first_refused (hr : s.readByte s.pc.toNat = .error r) : fetchWord s = .error r := by
  simp only [fetchWord, hr]

theorem fetchWord_of_second_refused (hhi : s.readByte s.pc.toNat = .ok hi)
    (hr : s.readByte (s.pc.toNat + 1) = .error r) : fetchWord s = .error r := by
  simp only [fetchWord, hhi, hr]

end

/-! ### Equations of the instructions a REFUSE policy may refuse

Where Laws/Exec.lean tells the outcomes apart, these keep the refusal in the value that carries it, so that one
instruction in two states can be compared without a case for each outcome. -/

section
variable (s : State) (x y : RegIx) (n : Nibble)

theorem exec_skp_eq : exec (.skp x) s = orRefuse (keyIndex s x) fun k => .next (s.skipIf (s.keyDown k)) := rfl

theorem exec_sknp_eq : exec (.sknp x) s = orRefuse (keyIndex s x) fun k => .next (s.skipIf (!s.keyDown k)) := rfl

theorem exec_ldF_eq : exec (.ldF x) s =
    orRefuse (fontGlyphAddress s.params.fontIndexPolicy (s.reg x)) fun a => .next (s.setI a).advance := rfl

theorem exec_ldB_eq : exec (.ldB x) s =
    orRefuse (s.writeBytes s.i.toNat (bcdDigits (s.reg x))) fun t => .next t.advance := rfl

theorem exec_ldMemVx_eq : exec (.ldMemVx x) s =
    orRefuse (s.writeBytes s.i.toNat (regBlock s x)) fun t => .next (t.afterMemop x).advance := rfl

theorem exec_ldVxMem_eq : exec (.ldVxMem x) s =
    orRefuse (s.readBytes s.i.toNat (x.val + 1)) fun bytes => .next ((s.setRegsFrom 0 bytes).afterMemop x).advance := rfl

theorem exec_drw_eq : exec (.drw x y n) s = if s.hires then drawHighPath x y n s else drawLowPath x y n s := rfl

theorem mapNext_orRefuse {α : Type} (f : State → State) (v : Except Refusal α) (k : α → Result) :
    mapNext f (orRefuse v k) = orRefuse v fun a => mapNext f (k a) := by
  cases v <;> rfl

theorem orRefuse_map {α β : Type} (g : α → β) (v : Except Refusal α) (k : β → Result) :
    orRefuse (v.map g) k = orRefuse v fun a => k (g a) := by
  cases v <;> rfl

end

/-! ### A change to the unseen items -/

/-- A change to the draw counter, the accumulators of the clock and timer units, and CYCLE_COST, each from its own value. -/
structure UnseenEdit where
  draws     : Nat → Nat
  clkAcc    : Rat → Rat
  tmrAcc    : Rat → Rat
  cycleCost : Nat → Nat

/-- The state with its unseen items changed. -/
def State.edit (s : State) (e : UnseenEdit) : State :=
  { s with
    randDraws := e.draws s.randDraws
    clkAcc    := e.clkAcc s.clkAcc
    tmrAcc    := e.tmrAcc s.tmrAcc
    cycleCost := e.cycleCost s.cycleCost }

variable (s : State) (e : UnseenEdit) (x y : RegIx) (n : Nibble)

theorem edit_params : (s.edit e).params = s.params := rfl

theorem edit_legacyShift : (s.edit e).legacyShift = s.legacyShift := rfl

theorem edit_hires : (s.edit e).hires = s.hires := rfl

theorem edit_readByte (a : Nat) : (s.edit e).readByte a = s.readByte a := rfl

theorem edit_readBytes (a k : Nat) : (s.edit e).readBytes a k = s.readBytes a k := by
  induction k generalizing a with
  | zero => rfl
  | succ k ih => simp only [State.readBytes, edit_readByte, ih]

theorem edit_writeByte (a : Nat) (b : Byte) : (s.edit e).writeByte a b = (s.writeByte a b).map (·.edit e) := by
  simp only [State.writeByte, edit_params]
  cases memIndex s.params.oobPolicy a <;> rfl

theorem edit_writeBytes (a : Nat) (bs : List Byte) :
    (s.edit e).writeBytes a bs = (s.writeBytes a bs).map (·.edit e) := by
  induction bs generalizing s a with
  | nil => rfl
  | cons b bs ih =>
    simp only [State.writeBytes, edit_writeByte]
    cases s.writeByte a b with
    | error r => rfl
    | ok t => exact ih t (a + 1)

theorem edit_setRegsFrom (k : Nat) (bs : List Byte) : (s.edit e).setRegsFrom k bs = (s.setRegsFrom k bs).edit e := by
  induction bs generalizing s k with
  | nil => rfl
  | cons b bs ih =>
    simp only [State.setRegsFrom]
    split
    case isTrue hk => exact ih (s.setReg ⟨k, hk⟩ b) (k + 1)
    case isFalse => rfl

theorem edit_skipIf (taken : Bool) : (s.edit e).skipIf taken = (s.skipIf taken).edit e := by
  cases taken <;> rfl

theorem edit_afterMemop : (s.edit e).afterMemop x = (s.afterMemop x).edit e := by
  simp only [State.afterMemop_eq]; rfl

theorem edit_shifted (b : Byte) (out : Bool) : shifted (s.edit e) x y b out = (shifted s x y b out).edit e := by
  by_cases hy : (s.legacyShift && s.params.legacyShiftWritesVy && y != x) = true <;>
    simp only [shifted, edit_legacyShift, edit_params, hy, ↓reduceIte] <;> rfl

theorem edit_drawLowPath : drawLowPath x y n (s.edit e) = mapNext (·.edit e) (drawLowPath x y n s) := by
  simp only [drawLowPath, edit_readBytes, mapNext_orRefuse]; rfl

theorem edit_drawHighPath : drawHighPath x y n (s.edit e) = mapNext (·.edit e) (drawHighPath x y n s) := by
  simp only [drawHighPath, edit_readBytes, mapNext_orRefuse]; rfl

/-- An instruction other than CXNN does in the changed state what it does in the state itself, and leaves the change in
place (R48, R112, R113): its reads are of other items, and its updates keep these. -/
theorem exec_edit {i : Instr} (hi : ∀ x nn, i ≠ .rnd x nn) : exec i (s.edit e) = mapNext (·.edit e) (exec i s) := by
  cases i with
  | rnd x nn => exact absurd rfl (hi x nn)
  | ret =>
    by_cases hs : s.sp.val = 0
    · rw [exec_ret_empty s hs, exec_ret_empty (s.edit e) hs]; rfl
    · rw [exec_ret_entry s (by omega), exec_ret_entry (s.edit e) (Nat.pos_of_ne_zero hs)]; rfl
  | call nnn =>
    by_cases hs : s.sp.val = 16
    · rw [exec_call_full s nnn hs, exec_call_full (s.edit e) nnn hs]; rfl
    · have hroom : s.sp.val < 16 := by omega
      rw [exec_call_room s nnn hroom, exec_call_room (s.edit e) nnn hroom]; rfl
  | seVxNn x nn => rw [exec_seVxNn, exec_seVxNn]; rfl
  | sneVxNn x nn => rw [exec_sneVxNn, exec_sneVxNn]; rfl
  | seVxVy x y n => rw [exec_seVxVy, exec_seVxVy]; rfl
  | sneVxVy x y n => rw [exec_sneVxVy, exec_sneVxVy]; rfl
  | shr x y => rw [exec_shr, exec_shr, edit_shifted]; rfl
  | shl x y => rw [exec_shl, exec_shl, edit_shifted]; rfl
  | skp x => simp only [exec_skp_eq, edit_skipIf, mapNext_orRefuse]; rfl
  | sknp x => simp only [exec_sknp_eq, edit_skipIf, mapNext_orRefuse]; rfl
  | ldF x => simp only [exec_ldF_eq, mapNext_orRefuse]; rfl
  | ldB x => simp only [exec_ldB_eq, edit_writeBytes, orRefuse_map, mapNext_orRefuse]; rfl
  | ldMemVx x =>
    simp only [exec_ldMemVx_eq, edit_writeBytes, orRefuse_map, edit_afterMemop, mapNext_orRefuse]; rfl
  | ldVxMem x =>
    simp only [exec_ldVxMem_eq, edit_readBytes, edit_setRegsFrom, edit_afterMemop, mapNext_orRefuse]; rfl
  | drw x y n =>
    simp only [exec_drw_eq, edit_hires, edit_drawLowPath, edit_drawHighPath]
    split <;> rfl
  | _ => rfl

/-- CXNN too ignores a change that keeps the draw counter: it commutes with the count and with the drawn byte. -/
theorem exec_rnd_edit (nn : Byte) (hd : e.draws = id) :
    exec (.rnd x nn) (s.edit e) = mapNext (·.edit e) (exec (.rnd x nn) s) := by
  simp only [exec_rnd, State.edit, hd]; rfl

end Sys2Proof.Machine
end

section
/-! The statements of the family 30_encoding.md about the fetch and about what no instruction sees. -/

namespace Sys2Proof.Machine

/-- Settles O7: the fetched word is the two bytes put together, and its value is that of its bytes. -/
theorem fetchIsBigEndian : Obligations.FetchIsBigEndian := by
  unfold Obligations.FetchIsBigEndian
  intro s
  refine ⟨fun hi lo hhi hlo => ?word, fun r => fetchWord_of_first_refused, fun hi r => fetchWord_of_second_refused⟩
  case word => exact ⟨wordOfBytes hi lo, fetchWord_of_bytes hhi hlo, toNat_wordOfBytes hi lo⟩

/-- Settles O11: the first and third clause are changes of unseen items that every instruction commutes with; CXNN reads
the draw counter only through the drawn byte. -/
theorem drawsAndClockAreInvisible : Obligations.DrawsAndClockAreInvisible := by
  unfold Obligations.DrawsAndClockAreInvisible
  refine ⟨?draws, ?drawnByte, ?clock⟩
  case draws =>
    intro i s n hi
    exact exec_edit s ⟨fun _ => n, id, id, id⟩ hi
  case drawnByte =>
    intro x nn s n hbyte
    simp only [exec_rnd, hbyte]
    rfl
  case clock =>
    intro i s a b c
    cases i with
    | rnd x nn => exact exec_rnd_edit s ⟨id, fun _ => a, fun _ => b, fun _ => c⟩ x nn rfl
    | _ => exact exec_edit s ⟨id, fun _ => a, fun _ => b, fun _ => c⟩ fun _ _ => Instr.noConfusion

end Sys2Proof.Machine
end

section
/-! SUPPORT. The targets of control transfers as numbers, the word of a call, and a return that directly follows a call
(spec 40_control.md R141, R142, R147; 10_state.md R36, R37). -/

namespace Sys2Proof.Machine

open Sys2Proof.Config

variable {s t : State} {nnn : Imm12}

/-! ### Jump targets -/

theorem toNat_immAddress (nnn : Imm12) : (immAddress nnn).toNat = nnn.toNat := by
  unfold immAddress
  exact BitVec.toNat_setWidth_of_le (by decide)

theorem toNat_regWord (s : State) (x : RegIx) : (regWord s x).toNat = (s.reg x).toNat := by
  unfold regWord
  exact BitVec.toNat_setWidth_of_le (by decide)

/-- Twelve bits plus eight bits stay below 2^16, so the sum of BNNN never wraps (D12). -/
theorem toNat_immAddress_add_regWord (nnn : Imm12) (s : State) (x : RegIx) :
    (immAddress nnn + regWord s x).toNat = nnn.toNat + (s.reg x).toNat := by
  have hn : nnn.toNat < 4096 := nnn.isLt
  have hv : (s.reg x).toNat < 256 := (s.reg x).isLt
  rw [BitVec.toNat_add, toNat_immAddress, toNat_regWord, Nat.mod_eq_of_lt (by omega)]

/-! ### The word of a call -/

theorem eq_wordNNN {w : Word} {f : Nibble} (h : w.toNat = f.toNat * 4096 + nnn.toNat) : w = wordNNN f nnn :=
  BitVec.eq_of_toNat_eq (h.trans (toNat_wordNNN f nnn).symm)

theorem decode_wordNNN_call (m : Family0Match) (nnn : Imm12) : decode m (wordNNN 0x2 nnn) = .call nnn := by
  simp [decode]

/-! ### A return that directly follows a call -/

/-- The return pops the entry the call pushed: the depth is that before the call and pc is two past it (R37). -/
theorem exec_ret_of_exec_call (h : exec (.call nnn) s = .next t) :
    exec .ret t = .next ({ s with stack := t.stack }.setPc (s.pc + 2)) := by
  obtain ⟨hs, rfl⟩ := exec_call_next h
  rw [exec_ret_entry _ (Nat.succ_pos _)]
  simp [State.setPc]

end Sys2Proof.Machine
end

section
/-! The statements of the family 40_control.md about jumps, calls and the return that follows a call. -/

namespace Sys2Proof.Machine

/-- Settles O20: both targets as numbers; pc is the one item on either instruction's list. -/
theorem jumpsSetProgramCounter : Obligations.JumpsSetProgramCounter := by
  unfold Obligations.JumpsSetProgramCounter
  intro nnn s
  have hjp := exec_jp s nnn
  have hjpV0 := exec_jpV0 s nnn
  exact ⟨⟨_, hjp, toNat_immAddress nnn, exec_changesOnly hjp⟩,
    ⟨_, hjpV0, toNat_immAddress_add_regWord nnn s 0, exec_changesOnly hjpV0⟩⟩

/-- Settles O21: with room the entry at SP is the call's own address, and a full stack faults. -/
theorem callPushesItsOwnAddress : Obligations.CallPushesItsOwnAddress := by
  unfold Obligations.CallPushesItsOwnAddress
  intro nnn s
  refine ⟨fun m w hw => ?word, fun hs => ?room, exec_call_full s nnn⟩
  case word => rw [eq_wordNNN (f := 0x2) hw, decode_wordNNN_call]
  case room =>
    have hcall := exec_call_room s nnn hs
    refine ⟨_, hcall, ?pushed, fun k hk => ?others, rfl, toNat_immAddress nnn, exec_changesOnly hcall⟩
    case pushed => simp [hs]
    case others => exact Vector.getElem_set_ne hs k.isLt (Ne.symm hk)

/-- Settles O23: the call's push stores at SP, above every entry in use, and the return restores SP itself. -/
theorem callThenReturnComesBack : Obligations.CallThenReturnComesBack := by
  unfold Obligations.CallThenReturnComesBack
  intro nnn s hs
  have hcall := exec_call_room s nnn hs
  refine ⟨_, _, hcall, exec_ret_of_exec_call hcall, rfl, rfl, fun k hk => ?inUse, ?frame⟩
  case inUse => exact Vector.getElem_set_ne hs k.isLt (Nat.ne_of_gt hk)
  case frame =>
    have h0 : ChangesOnly [.pc, .stack] s s := .refl s
    exact h0.setStack.setPc

end Sys2Proof.Machine
end

section
/-! SUPPORT. The words of the register instructions and the frame of a write to VX (spec 30_encoding.md R102, R107;
41_alu.md R170 to R172). -/

namespace Sys2Proof.Machine

open Sys2Proof.Config

/-! ### Words by their fields -/

theorem eq_wordXNN {w : Word} {f : Nibble} {x : RegIx} {nn : Byte}
    (h : w.toNat = f.toNat * 4096 + 256 * x.val + nn.toNat) : w = wordXNN f x nn := by
  rw [Nat.mul_comm 256] at h
  exact BitVec.eq_of_toNat_eq (h.trans (toNat_wordXNN f x nn).symm)

theorem eq_nibbles {w : Word} {f n : Nibble} {x y : RegIx}
    (h : w.toNat = f.toNat * 4096 + 256 * x.val + 16 * y.val + n.toNat) : w = nibbles f (regField x) (regField y) n := by
  rw [Nat.mul_comm 256, Nat.mul_comm 16] at h
  exact BitVec.eq_of_toNat_eq (h.trans (toNat_nibbles f (regField x) (regField y) n).symm)

theorem decode_wordXNN_ldVxNn (m : Family0Match) (x : RegIx) (nn : Byte) : decode m (wordXNN 0x6 x nn) = .ldVxNn x nn := by
  simp [decode]

theorem decode_wordXNN_addVxNn (m : Family0Match) (x : RegIx) (nn : Byte) :
    decode m (wordXNN 0x7 x nn) = .addVxNn x nn := by
  simp [decode]

theorem decode_nibbles_ldVxVy (m : Family0Match) (x y : RegIx) :
    decode m (nibbles 0x8 (regField x) (regField y) 0x0) = .ldVxVy x y := by
  simp [decode, decodeFamily8]

/-! ### One register written, then pc + 2 -/

/-- A write of VX that advances leaves every other register (VF too unless X = 0xF) and every other item alone. -/
theorem setReg_advance_frame (s : State) (x : RegIx) (b : Byte) :
    RegsOnly [x] s (s.setReg x b).advance ∧ (s.setReg x b).advance.pc = s.pc + 2 ∧
      ChangesOnly [.regs, .pc] s (s.setReg x b).advance := by
  have hregs : RegsOnly [x] s s := fun _ _ => rfl
  have hparts : ChangesOnly [.regs, .pc] s s := .refl s
  exact ⟨hregs.setReg (by simp), rfl, hparts.setReg.advance⟩

end Sys2Proof.Machine
end

section
/-! The statement of the family 41_alu.md about loads, copies and the addition of an immediate. -/

namespace Sys2Proof.Machine

/-- Settles O26: each instruction writes VX once and advances; only the value written tells the three apart. -/
theorem loadsCopiesAndAddImmediate : Obligations.LoadsCopiesAndAddImmediate := by
  unfold Obligations.LoadsCopiesAndAddImmediate
  intro x y nn s
  refine ⟨fun m w => ⟨fun hw => ?wordLoad, fun hw => ?wordAdd, fun hw => ?wordCopy⟩,
    ⟨_, exec_ldVxNn s x nn, s.setReg_reg_same x nn, setReg_advance_frame s x nn⟩,
    ⟨_, exec_addVxNn s x nn, ?sum, setReg_advance_frame s x (s.reg x + nn)⟩,
    ⟨_, exec_ldVxVy s x y, s.setReg_reg_same x (s.reg y), setReg_advance_frame s x (s.reg y)⟩⟩
  case wordLoad => rw [eq_wordXNN (f := 0x6) hw, decode_wordXNN_ldVxNn]
  case wordAdd => rw [eq_wordXNN (f := 0x7) hw, decode_wordXNN_addVxNn]
  case wordCopy => rw [eq_nibbles (f := 0x8) (n := 0x0) hw, decode_nibbles_ldVxVy]
  case sum => rw [State.advance_reg, State.setReg_reg_same, BitVec.toNat_add]

end Sys2Proof.Machine
end

section
/-! The statement of the family 42_display.md about clearing the screen. -/

namespace Sys2Proof.Machine

open Sys2Proof.Config

/-- The high byte of 00E0 is 0, so it is listed under either match width (R106). -/
theorem decode_00E0 (m : Family0Match) : decode m 0x00E0 = .cls := by
  cases m with
  | full12 => rfl
  | lowByte => rfl

/-- Settles O32: CLS stores the cleared framebuffer and advances, and neither update touches HIRES. -/
theorem clearScreen : Obligations.ClearScreen := by
  unfold Obligations.ClearScreen
  intro s
  refine ⟨decode_00E0, _, exec_cls s, fun r c _ _ => Framebuffer.get_clear r c, rfl, ?frame⟩
  case frame =>
    have h0 : ChangesOnly [.fb, .pc] s s := .refl s
    exact h0.setFb.advance

end Sys2Proof.Machine
end

section
/-! SUPPORT. The words of family F, the tone the host sees, and the frame of a write to a timer (spec 30_encoding.md R102,
R109; 44_timer_key.md R272, R274, R275). -/

namespace Sys2Proof.Machine

open Sys2Proof.Config

/-! ### The words of family F -/

theorem eq_wordXNN_familyF {w : Word} {x : RegIx} {nn : Byte} (h : w.toNat = 0xF000 + nn.toNat + 256 * x.val) :
    w = wordXNN 0xF x nn := by
  refine eq_wordXNN (h.trans ?_)
  rw [Nat.add_right_comm]
  rfl

theorem decode_wordXNN_ldVxDt (m : Family0Match) (x : RegIx) : decode m (wordXNN 0xF x 0x07) = .ldVxDt x := by
  simp [decode, decodeFamilyF]

theorem decode_wordXNN_ldDtVx (m : Family0Match) (x : RegIx) : decode m (wordXNN 0xF x 0x15) = .ldDtVx x := by
  simp [decode, decodeFamilyF]

theorem decode_wordXNN_ldStVx (m : Family0Match) (x : RegIx) : decode m (wordXNN 0xF x 0x18) = .ldStVx x := by
  simp [decode, decodeFamilyF]

/-! ### The timers -/

/-- The host hears the tone exactly while ST runs (R275). -/
theorem readout_toneOn_iff (s : State) : (readout s).toneOn = true ↔ s.st ≠ 0 := bne_iff_ne

theorem setDt_advance_changesOnly (s : State) (b : Byte) : ChangesOnly [.dt, .pc] s (s.setDt b).advance := by
  have h0 : ChangesOnly [.dt, .pc] s s := .refl s
  exact h0.setDt.advance

theorem setSt_advance_changesOnly (s : State) (b : Byte) : ChangesOnly [.st, .pc] s (s.setSt b).advance := by
  have h0 : ChangesOnly [.st, .pc] s s := .refl s
  exact h0.setSt.advance

/-- DT is on the list of FX15 alone, so every other instruction keeps it. -/
theorem exec_keeps_dt {i : Instr} {s t : State} (h : exec i s = .next t) (hi : ∀ z, i ≠ .ldDtVx z) : t.dt = s.dt := by
  by_contra hne
  obtain ⟨z, hz⟩ := dt_mem_itemsWritten (exec_part_written h .dt hne)
  exact hi z hz

end Sys2Proof.Machine
end

section
/-! The statement of the family 44_timer_key.md about moves between VX and the timers. -/

namespace Sys2Proof.Machine

/-- Settles O41: each move is one named update and an advance; the tone after FX18 is read off the ST it wrote. -/
theorem timerRegisterMoves : Obligations.TimerRegisterMoves := by
  unfold Obligations.TimerRegisterMoves
  intro x s
  refine ⟨fun m w => ⟨fun hw => ?wordFx07, fun hw => ?wordFx15, fun hw => ?wordFx18⟩,
    ⟨_, exec_ldVxDt s x, s.setReg_reg_same x s.dt, setReg_advance_frame s x s.dt⟩,
    ⟨_, exec_ldDtVx s x, rfl, rfl, setDt_advance_changesOnly s (s.reg x)⟩,
    ⟨_, exec_ldStVx s x, rfl, readout_toneOn_iff _, rfl, setSt_advance_changesOnly s (s.reg x)⟩,
    fun i t => exec_keeps_dt⟩
  case wordFx07 => rw [eq_wordXNN_familyF (nn := 0x07) hw, decode_wordXNN_ldVxDt]
  case wordFx15 => rw [eq_wordXNN_familyF (nn := 0x15) hw, decode_wordXNN_ldDtVx]
  case wordFx18 => rw [eq_wordXNN_familyF (nn := 0x18) hw, decode_wordXNN_ldStVx]

end Sys2Proof.Machine
end

section
/-! SUPPORT. A step that fetches an unlisted word under FULL12: encoding the decoded word gives the word back (spec
30_encoding.md R105 to R109), so a word that no row of the table selects decodes to the unlisted instruction that carries it
(R115, R291). -/

namespace Sys2Proof.Machine

open Sys2Proof.Laws

/-- A running core under FULL12 whose next word is `w`, and no row of the table selects `w`. -/
structure UnlistedFetch (s : State) (w : Word) : Prop where
  full12 : s.params.family0Match = .full12
  noRow : ∀ row ∈ opcodeTable, rowSelects row w = false
  running : Running s
  fetched : fetchWord s = .ok w

/-! ### A word by the fields the decoder read -/

section
variable {w : Word} {f : Nibble}

theorem nibbles_eq_of_fields {n : Nibble} (hf : (fieldF w).toNat = f.toNat) (hn : (fieldN w).toNat = n.toNat) :
    nibbles f (regField (fieldX w)) (regField (fieldY w)) n = w := by
  rw [← BitVec.eq_of_toNat_eq hf, ← BitVec.eq_of_toNat_eq hn, nibbles_fields]

theorem nibbles_eq_of_family (hf : (fieldF w).toNat = f.toNat) :
    nibbles f (regField (fieldX w)) (regField (fieldY w)) (fieldN w) = w :=
  nibbles_eq_of_fields hf rfl

theorem wordXNN_eq_of_fields {nn : Byte} (hf : (fieldF w).toNat = f.toNat) (hnn : (fieldNN w).toNat = nn.toNat) :
    wordXNN f (fieldX w) nn = w := by
  rw [← BitVec.eq_of_toNat_eq hf, ← BitVec.eq_of_toNat_eq hnn, wordXNN_fields]

theorem wordXNN_eq_of_family (hf : (fieldF w).toNat = f.toNat) : wordXNN f (fieldX w) (fieldNN w) = w :=
  wordXNN_eq_of_fields hf rfl

theorem wordNNN_eq_of_family (hf : (fieldF w).toNat = f.toNat) : wordNNN f (fieldNNN w) = w := by
  rw [← BitVec.eq_of_toNat_eq hf, wordNNN_fields]

end

/-! ### Encoding what was decoded, family by family -/

section
variable {w : Word}

theorem encode_decodeFamily8 (hf : (fieldF w).toNat = 0x8) : encode (decodeFamily8 w) = w := by
  unfold decodeFamily8
  split
  case h_10 => rfl
  all_goals exact nibbles_eq_of_fields hf ‹_›

theorem encode_decodeFamilyE (hf : (fieldF w).toNat = 0xE) : encode (decodeFamilyE w) = w := by
  unfold decodeFamilyE
  split
  case h_3 => rfl
  all_goals exact wordXNN_eq_of_fields hf ‹_›

theorem encode_decodeFamilyF (hf : (fieldF w).toNat = 0xF) : encode (decodeFamilyF w) = w := by
  unfold decodeFamilyF
  split
  case h_10 => rfl
  all_goals exact wordXNN_eq_of_fields hf ‹_›

/-- A family-0 word with w[11:8] = 0 is the number in its low byte. -/
theorem eq_of_family0_low {v : Word} (hf : (fieldF w).toNat = 0) (hx : fieldX w = 0)
    (hv : (fieldNN w).toNat = v.toNat) : v = w := by
  have hX : (fieldX w).val = 0 := congrArg Fin.val hx
  rw [toNat_fieldF] at hf
  rw [val_fieldX] at hX
  rw [toNat_fieldNN] at hv
  exact BitVec.eq_of_toNat_eq (by omega)

theorem encode_decodeFamily0Low (hf : (fieldF w).toNat = 0) (hx : fieldX w = 0) : encode (decodeFamily0Low w) = w := by
  unfold decodeFamily0Low
  split
  case h_8 =>
    split
    case isTrue hy =>
      have hy : regField (fieldY w) = 0xC := hy
      have hscd := nibbles_eq_of_family (f := 0) hf
      rwa [hx, hy] at hscd
    case isFalse => rfl
  all_goals exact eq_of_family0_low hf hx ‹_›

theorem encode_decodeFamily0 (hf : (fieldF w).toNat = 0) : encode (decodeFamily0 .full12 w) = w := by
  by_cases hx : w.extractLsb 11 8 = (0 : Nibble)
  · rw [decodeFamily0, if_pos hx]
    exact encode_decodeFamily0Low hf (congrArg BitVec.toFin hx)
  · rw [decodeFamily0, if_neg hx]
    rfl

theorem encode_decode_full12 (w : Word) : encode (decode .full12 w) = w := by
  unfold decode
  split
  next hf => exact encode_decodeFamily0 hf
  next hf => exact wordNNN_eq_of_family hf
  next hf => exact wordNNN_eq_of_family hf
  next hf => exact wordXNN_eq_of_family hf
  next hf => exact wordXNN_eq_of_family hf
  next hf => exact nibbles_eq_of_family hf
  next hf => exact wordXNN_eq_of_family hf
  next hf => exact wordXNN_eq_of_family hf
  next hf => exact encode_decodeFamily8 hf
  next hf => exact nibbles_eq_of_family hf
  next hf => exact wordNNN_eq_of_family hf
  next hf => exact wordNNN_eq_of_family hf
  next hf => exact wordXNN_eq_of_family hf
  next hf => exact nibbles_eq_of_family hf
  next hf => exact encode_decodeFamilyE hf
  next =>
    have hlt : (fieldF w).toNat < 16 := (fieldF w).isLt
    have hF : (fieldF w).toNat = 0xF := by grind
    exact encode_decodeFamilyF hF

end

/-! ### A word that no row selects -/

/-- The statement of Laws/PerInstr.lean, for every instruction: its word is one its own row selects. -/
theorem encodesToRow (i : Instr) : EncodesToRow.Statement i := by
  cases i with
  | cls => exact EncodesToRow.cls
  | ret => exact EncodesToRow.ret
  | scd n => exact EncodesToRow.scd n
  | scr => exact EncodesToRow.scr
  | scl => exact EncodesToRow.scl
  | exit => exact EncodesToRow.exit
  | low => exact EncodesToRow.low
  | high => exact EncodesToRow.high
  | jp nnn => exact EncodesToRow.jp nnn
  | call nnn => exact EncodesToRow.call nnn
  | seVxNn x nn => exact EncodesToRow.seVxNn x nn
  | sneVxNn x nn => exact EncodesToRow.sneVxNn x nn
  | seVxVy x y n => exact EncodesToRow.seVxVy x y n
  | ldVxNn x nn => exact EncodesToRow.ldVxNn x nn
  | addVxNn x nn => exact EncodesToRow.addVxNn x nn
  | ldVxVy x y => exact EncodesToRow.ldVxVy x y
  | or x y => exact EncodesToRow.or x y
  | and x y => exact EncodesToRow.and x y
  | xor x y => exact EncodesToRow.xor x y
  | addVxVy x y => exact EncodesToRow.addVxVy x y
  | sub x y => exact EncodesToRow.sub x y
  | shr x y => exact EncodesToRow.shr x y
  | subn x y => exact EncodesToRow.subn x y
  | shl x y => exact EncodesToRow.shl x y
  | sneVxVy x y n => exact EncodesToRow.sneVxVy x y n
  | ldI nnn => exact EncodesToRow.ldI nnn
  | jpV0 nnn => exact EncodesToRow.jpV0 nnn
  | rnd x nn => exact EncodesToRow.rnd x nn
  | drw x y n => exact EncodesToRow.drw x y n
  | skp x => exact EncodesToRow.skp x
  | sknp x => exact EncodesToRow.sknp x
  | ldVxDt x => exact EncodesToRow.ldVxDt x
  | ldVxK x => exact EncodesToRow.ldVxK x
  | ldDtVx x => exact EncodesToRow.ldDtVx x
  | ldStVx x => exact EncodesToRow.ldStVx x
  | addIVx x => exact EncodesToRow.addIVx x
  | ldF x => exact EncodesToRow.ldF x
  | ldB x => exact EncodesToRow.ldB x
  | ldMemVx x => exact EncodesToRow.ldMemVx x
  | ldVxMem x => exact EncodesToRow.ldVxMem x
  | unlisted w => exact EncodesToRow.unlisted w

/-- A row of the decoded instruction would select the word, so an unselected word decodes to an instruction without one. -/
theorem decode_eq_unlisted_of_no_row {w : Word} (h : ∀ row ∈ opcodeTable, rowSelects row w = false) :
    decode .full12 w = .unlisted w := by
  obtain ⟨hrow, hnone⟩ := encodesToRow (decode .full12 w)
  rw [encode_decode_full12] at hrow hnone
  refine hnone (Option.eq_none_iff_forall_ne_some.mpr fun row hr => ?_)
  obtain ⟨hmem, hsel⟩ := hrow row hr
  exact Bool.false_ne_true ((h row hmem).symm.trans hsel)

/-! ### The step -/

theorem step_of_exec_next {s t : State} {w : Word} (hr : Running s) (hw : fetchWord s = .ok w)
    (h : exec (decode s.params.family0Match w) s = .next t) :
    step s = .next (t.setCycleCost (instructionCost w s t)) := by
  rw [step_running hr, hw, ← finishStep_next, ← h]
  rfl

/-- The step is the advance and the write of CYCLE_COST (R113, R291). -/
theorem UnlistedFetch.step_eq {s : State} {w : Word} (h : UnlistedFetch s w) :
    step s = .next (s.advance.setCycleCost (instructionCost w s s.advance)) := by
  refine step_of_exec_next h.running h.fetched ?_
  rw [h.full12, decode_eq_unlisted_of_no_row h.noRow, exec_unlisted]

end Sys2Proof.Machine
end

section
/-! SUPPORT. What the write of CYCLE_COST leaves alone and what it writes, and pc + 2 as a number (spec 30_encoding.md R110,
R113). -/

namespace Sys2Proof.Machine

theorem ChangesOnly.setCycleCost {ps : List Part} {s t : State} (h : ChangesOnly ps s t) {n : Nat} (hq : .cycleCost ∈ ps) :
    ChangesOnly ps s (t.setCycleCost n) :=
  h.update hq fun p hp => by cases p <;> simp_all [SamePart]

theorem instructionCost_fixed {s : State} (h : s.timingMode = .fixed) (w : Word) (t : State) :
    instructionCost w s t = 1 := by
  simp [instructionCost, h]

/-- COST does not look at the CYCLE_COST of the state after the instruction. -/
theorem instructionCost_accurate {s : State} (h : s.timingMode = .accurate) (w : Word) (t : State) (n : Nat) :
    instructionCost w s t = accurateCost w s (t.setCycleCost n) := by
  simp only [instructionCost, h]
  rfl

theorem toNat_advance_pc (s : State) : s.advance.pc.toNat = (s.pc.toNat + 2) % 65536 := BitVec.toNat_add s.pc 2

end Sys2Proof.Machine
end

section
/-! The statement of the family 45_system.md about unlisted words. -/

namespace Sys2Proof.Machine

/-- Settles O47: the instruction is the advance alone, and a word that no row selects decodes to it; the step adds the
write of CYCLE_COST. -/
theorem unlistedWordOnlyAdvances : Obligations.UnlistedWordOnlyAdvances := by
  unfold Obligations.UnlistedWordOnlyAdvances
  intro s w
  have hexec := exec_unlisted s w
  refine ⟨⟨_, hexec, toNat_advance_pc s, exec_changesOnly hexec⟩, fun hm hrows hr hw => ?step⟩
  case step =>
    have hfetch : UnlistedFetch s w := ⟨hm, hrows, hr, hw⟩
    have h0 : ChangesOnly [.pc, .cycleCost] s s := .refl s
    exact ⟨_, hfetch.step_eq, toNat_advance_pc s, fun hfix => instructionCost_fixed hfix w _,
      fun hacc => instructionCost_accurate hacc w _ _, h0.advance.setCycleCost (by simp)⟩

end Sys2Proof.Machine
end

section
/-! SUPPORT. Every outcome of an instruction, once: it goes on, it meets one of the two stack faults, or a REFUSE policy
refuses it (spec 60_exceptions.md R300, R301, R304; 93_implementation_defined.md section 1). Then the outcome of a step that
fetches. -/

namespace Sys2Proof.Machine

open Sys2Proof.Config

variable {i : Instr} {s : State} {w : Word}

/-! ### The stack faults -/

/-- The instruction meets the fault `f`: a return from an empty stack, or a call with the stack full (R300, R301, D21). -/
def StackFault (i : Instr) (s : State) (f : Fault) : Prop :=
  (i = .ret ∧ s.sp.val = 0 ∧ f = .stackUnderflow s.pc) ∨
  ((∃ nnn, i = .call nnn) ∧ s.sp.val = 16 ∧ f = .stackOverflow s.pc)

theorem exec_of_stackFault {f : Fault} (h : StackFault i s f) : exec i s = .fault f := by
  rcases h with ⟨rfl, hs, rfl⟩ | ⟨⟨nnn, rfl⟩, hs, rfl⟩
  · exact exec_ret_empty s hs
  · exact exec_call_full s nnn hs

theorem exists_stackFault_iff (i : Instr) (s : State) :
    (∃ f, StackFault i s f) ↔ (i = .ret ∧ s.sp.val = 0) ∨ ((∃ nnn, i = .call nnn) ∧ s.sp.val = 16) := by
  constructor
  · rintro ⟨f, ⟨hi, hs, _⟩ | ⟨hi, hs, _⟩⟩
    · exact .inl ⟨hi, hs⟩
    · exact .inr ⟨hi, hs⟩
  · rintro (⟨hi, hs⟩ | ⟨hi, hs⟩)
    · exact ⟨_, .inl ⟨hi, hs, rfl⟩⟩
    · exact ⟨_, .inr ⟨hi, hs, rfl⟩⟩

/-! ### The outcomes of an instruction -/

theorem not_noRefusePolicy_of_oob {p : Params} (h : p.oobPolicy = .refuse) : ¬NoRefusePolicy p :=
  fun ⟨hoob, _, _⟩ => nomatch h.symm.trans hoob

theorem not_noRefusePolicy_of_keyIndex {p : Params} (h : p.keyIndexPolicy = .refuse) : ¬NoRefusePolicy p :=
  fun ⟨_, hkey, _⟩ => nomatch h.symm.trans hkey

theorem not_noRefusePolicy_of_fontIndex {p : Params} (h : p.fontIndexPolicy = .refuse) : ¬NoRefusePolicy p :=
  fun ⟨_, _, hfont⟩ => hfont h

/-- Only 00EE and 2NNN can fault, and only those that read or write memory, take a key or a font digit can be refused. -/
theorem exec_outcomes (i : Instr) (s : State) :
    (∃ t, exec i s = .next t) ∨ (∃ f, StackFault i s f) ∨ (¬NoRefusePolicy s.params ∧ ∃ r, exec i s = .refused r) := by
  cases i with
  | ret =>
    by_cases hs : s.sp.val = 0
    · exact .inr (.inl ⟨_, .inl ⟨rfl, hs, rfl⟩⟩)
    · exact .inl ⟨_, exec_ret_entry s (by omega)⟩
  | call nnn =>
    by_cases hs : s.sp.val = 16
    · exact .inr (.inl ⟨_, .inr ⟨⟨nnn, rfl⟩, hs, rfl⟩⟩)
    · exact .inl ⟨_, exec_call_room s nnn (by omega)⟩
  | skp x =>
    rcases exec_skp_cases s x with ⟨k, _, _, hn⟩ | ⟨hp, _, hr⟩
    · exact .inl ⟨_, hn⟩
    · exact .inr (.inr ⟨not_noRefusePolicy_of_keyIndex hp, _, hr⟩)
  | sknp x =>
    rcases exec_sknp_cases s x with ⟨k, _, _, hn⟩ | ⟨hp, _, hr⟩
    · exact .inl ⟨_, hn⟩
    · exact .inr (.inr ⟨not_noRefusePolicy_of_keyIndex hp, _, hr⟩)
  | ldF x =>
    rcases exec_ldF_cases s x with ⟨a, _, hn⟩ | ⟨hp, _, hr⟩
    · exact .inl ⟨_, hn⟩
    · exact .inr (.inr ⟨not_noRefusePolicy_of_fontIndex hp, _, hr⟩)
  | drw x y n =>
    rcases exec_drw_cases s x y n with ⟨fb, f, hn⟩ | ⟨hp, a, _, hr⟩
    · exact .inl ⟨_, hn⟩
    · exact .inr (.inr ⟨not_noRefusePolicy_of_oob hp, _, hr⟩)
  | ldB x =>
    rcases reachable_or_refuse s s.i.toNat 3 with h | ⟨hp, h⟩
    · exact .inl ⟨_, exec_ldB_reachable s x h⟩
    · obtain ⟨a, _, hr⟩ := exec_ldB_unreachable s x h
      exact .inr (.inr ⟨not_noRefusePolicy_of_oob hp, _, hr⟩)
  | ldMemVx x =>
    rcases reachable_or_refuse s s.i.toNat (x.val + 1) with h | ⟨hp, h⟩
    · exact .inl ⟨_, exec_ldMemVx_reachable s x h⟩
    · obtain ⟨a, _, hr⟩ := exec_ldMemVx_unreachable s x h
      exact .inr (.inr ⟨not_noRefusePolicy_of_oob hp, _, hr⟩)
  | ldVxMem x =>
    rcases reachable_or_refuse s s.i.toNat (x.val + 1) with h | ⟨hp, h⟩
    · exact .inl ⟨_, exec_ldVxMem_reachable s x h⟩
    · obtain ⟨a, _, hr⟩ := exec_ldVxMem_unreachable s x h
      exact .inr (.inr ⟨not_noRefusePolicy_of_oob hp, _, hr⟩)
  | _ => exact .inl ⟨_, rfl⟩

theorem exec_eq_fault_iff {f : Fault} : exec i s = .fault f ↔ StackFault i s f := by
  refine ⟨fun h => ?_, exec_of_stackFault⟩
  rcases exec_outcomes i s with ⟨t, hn⟩ | ⟨g, hg⟩ | ⟨_, r, hr⟩
  · rw [hn] at h; exact nomatch h
  · rw [exec_of_stackFault hg] at h
    injection h with h
    exact h ▸ hg
  · rw [hr] at h; exact nomatch h

theorem exec_ne_refused (hp : NoRefusePolicy s.params) (r : Refusal) : exec i s ≠ .refused r := by
  intro h
  rcases exec_outcomes i s with ⟨t, hn⟩ | ⟨f, hf⟩ | ⟨hno, _⟩
  · rw [hn] at h; exact nomatch h
  · rw [exec_of_stackFault hf] at h; exact nomatch h
  · exact hno hp

theorem exec_goesOn_iff (hp : NoRefusePolicy s.params) : (∃ t, exec i s = .next t) ↔ ¬∃ f, StackFault i s f := by
  constructor
  · rintro ⟨t, hn⟩ ⟨f, hf⟩
    rw [exec_of_stackFault hf] at hn; exact nomatch hn
  · intro hno
    rcases exec_outcomes i s with hn | hf | ⟨hno', _⟩
    · exact hn
    · exact absurd hf hno
    · exact absurd hp hno'

/-! ### The outcome of a step that fetches -/

/-- Under WRAP every fetch reaches memory (R72, R101). -/
theorem exists_fetchWord_of_wrap (h : s.params.oobPolicy = .wrap) : ∃ w, fetchWord s = .ok w := by
  rcases fetchWord_cases s with ⟨j, k, _, _, hw⟩ | ⟨hp, _⟩
  · exact ⟨_, hw⟩
  · exact nomatch h.symm.trans hp

theorem step_of_fetchWord (hr : Running s) (hw : fetchWord s = .ok w) :
    step s = finishStep w s (exec (decode s.params.family0Match w) s) := by
  rw [step_running hr, hw, orRefuse_ok]

theorem finishStep_goesOn_iff (o : Result) : (∃ t, finishStep w s o = .next t) ↔ ∃ t, o = .next t := by
  cases o <;> simp

theorem finishStep_eq_refused_iff {o : Result} {r : Refusal} : finishStep w s o = .refused r ↔ o = .refused r := by
  cases o <;> simp

end Sys2Proof.Machine
end

section
/-! The statements of the family 60_exceptions.md about which steps fault and which go on. -/

namespace Sys2Proof.Machine

/-- Settles O17: the two stack faults are the only faulting outcomes of an instruction. -/
theorem onlyStackFaults : Obligations.OnlyStackFaults := by
  unfold Obligations.OnlyStackFaults
  exact fun i s f => exec_eq_fault_iff

/-- Settles O18: the fetch reaches memory, so the step has the outcome of its one instruction, which no policy refuses. -/
theorem stepsGoOnWithoutRefusePolicies : Obligations.StepsGoOnWithoutRefusePolicies := by
  unfold Obligations.StepsGoOnWithoutRefusePolicies
  intro s hr hp
  obtain ⟨w, hw⟩ := exists_fetchWord_of_wrap hp.1
  have hstep := step_of_fetchWord hr hw
  refine ⟨fun r => ?notRefused, ?goesOn⟩
  case notRefused =>
    rw [hstep, ne_eq, finishStep_eq_refused_iff]
    exact exec_ne_refused hp r
  case goesOn =>
    rw [StepSafe, hstep, finishStep_goesOn_iff, exec_goesOn_iff hp, exists_stackFault_iff, not_or, hw]
    simp only [Except.ok.injEq, forall_eq']

end Sys2Proof.Machine
end

section
/-! SUPPORT. What the key events do to the latch and the wait, and their frames (spec 60_exceptions.md R330 to R334). -/

namespace Sys2Proof.Machine

variable {s t : State} {ps : List Part}

theorem ChangesOnly.setKey (h : ChangesOnly ps s t) {k : RegIx} {b : Bool} (hq : .key ∈ ps) :
    ChangesOnly ps s (t.setKey k b) :=
  h.update hq fun p hp => by cases p <;> simp_all [SamePart]

theorem ChangesOnly.endWait (h : ChangesOnly ps s t) (hq : .await ∈ ps) : ChangesOnly ps s t.endWait :=
  h.update hq fun p hp => by cases p <;> simp_all [SamePart]

/-! ### Release (R331) -/

theorem keyRelease_keyDown_same (k : RegIx) (s : State) : (keyRelease k s).keyDown k = false := by
  rw [keyRelease, State.setKey_keyDown, if_pos rfl]

theorem keyRelease_keyDown_ne {k j : RegIx} (h : j ≠ k) (s : State) : (keyRelease k s).keyDown j = s.keyDown j := by
  rw [keyRelease, State.setKey_keyDown, if_neg h]

theorem keyRelease_changesOnly (k : RegIx) (s : State) : ChangesOnly [.key] s (keyRelease k s) :=
  (ChangesOnly.refl s).setKey (by simp)

/-! ### A press that ends a wait (R330, R332) -/

/-- The state after key `k` ended the wait of `s`. -/
def waitEnded (k : RegIx) (s : State) : State :=
  ((s.setKey k true).setReg s.awaitReg (BitVec.ofNat 8 k.val)).endWait

theorem keyPress_eq_waitEnded (h : s.awaiting = true) (k : RegIx) : keyPress k s = waitEnded k s :=
  keyPress_waiting h k

theorem waitEnded_keyDown (k : RegIx) (s : State) : (waitEnded k s).keyDown k = true :=
  (s.setKey_keyDown k true k).trans (if_pos rfl)

/-- A key index is below 16, so the byte the register receives is the index itself. -/
theorem toNat_waitEnded_awaitReg (k : RegIx) (s : State) : ((waitEnded k s).reg s.awaitReg).toNat = k.val := by
  have hk : k.val < 16 := k.isLt
  rw [waitEnded, State.endWait_reg, State.setReg_reg_same, BitVec.toNat_ofNat, Nat.mod_eq_of_lt (by omega)]

theorem waitEnded_regsOnly (k : RegIx) (s : State) : RegsOnly [s.awaitReg] s (waitEnded k s) := by
  have hkey : RegsOnly [s.awaitReg] s (s.setKey k true) := fun _ _ => rfl
  exact hkey.setReg (by simp)

theorem waitEnded_changesOnly (k : RegIx) (s : State) : ChangesOnly [.key, .await, .regs] s (waitEnded k s) := by
  have hkey : ChangesOnly [.key, .await, .regs] s (s.setKey k true) := (ChangesOnly.refl s).setKey (by simp)
  exact hkey.setReg.endWait (by simp)

theorem running_waitEnded (h : s.fault = .none) (k : RegIx) : Running (waitEnded k s) := ⟨h, rfl⟩

theorem fetchWord_waitEnded (k : RegIx) (s : State) : fetchWord (waitEnded k s) = fetchWord s :=
  fetchWord_congr rfl rfl rfl

end Sys2Proof.Machine
end

section
/-! The statements of the family 60_exceptions.md about the wait for a key and the release of one. -/

namespace Sys2Proof.Machine

/-- Settles O43: a release leaves the core waiting, so its step is still a no-op; a press leaves it running at the same
pc. -/
theorem onlyAPressEndsTheWait : Obligations.OnlyAPressEndsTheWait := by
  unfold Obligations.OnlyAPressEndsTheWait
  intro s ha hf
  refine ⟨fun k => ?release, fun k => ?press⟩
  case release =>
    exact ⟨_, rfl, ha, keyRelease_keyDown_same k s, keyRelease_changesOnly k s, step_awaiting hf ha⟩
  case press =>
    exact ⟨_, keyPress_eq_waitEnded ha k, rfl, waitEnded_keyDown k s, toNat_waitEnded_awaitReg k s,
      waitEnded_regsOnly k s, waitEnded_changesOnly k s, rfl, fetchWord_waitEnded k s,
      fun w => step_of_fetchWord (running_waitEnded hf k)⟩

/-- Settles O42: FX0A is the begin of the wait and the advance, and FAULT is not among what they change. -/
theorem awaitKeySuspends : Obligations.AwaitKeySuspends := by
  unfold Obligations.AwaitKeySuspends
  intro x s
  have h0 : ChangesOnly [.await, .pc] s s := .refl s
  exact ⟨_, exec_ldVxK s x, rfl, rfl, rfl, h0.beginWait.advance, fun hf => step_awaiting hf rfl⟩

/-- Settles O45: the release writes one bit of KEY. -/
theorem keyReleaseClearsTheLatch : Obligations.KeyReleaseClearsTheLatch := by
  unfold Obligations.KeyReleaseClearsTheLatch
  exact fun k s => ⟨keyRelease_keyDown_same k s, fun j hj => keyRelease_keyDown_ne hj s, keyRelease_changesOnly k s⟩

end Sys2Proof.Machine
end

section
/-! SUPPORT. What a change of CYCLE_RATE writes, and the picture the host reads (spec 60_exceptions.md R322, R345). -/

namespace Sys2Proof.Machine

/-! ### A change of CYCLE_RATE -/

theorem setCycleRate_cycleRate (r : Rat) (s : State) : (setCycleRate r s).cycleRate = min r s.params.maxCycleRate := rfl

theorem setCycleRate_changesOnly (r : Rat) (s : State) : ChangesOnly [.config] s (setCycleRate r s) :=
  (ChangesOnly.refl s).update (q := .config) (by simp) fun p hp => by
    cases p with
    | config => exact absurd rfl hp
    | await => exact ⟨rfl, rfl⟩
    | regs | mem => exact fun _ => rfl
    | _ => rfl

theorem clockPeriod_fixed {s : State} (h : s.timingMode = .fixed) : clockPeriod s = 1 / s.cycleRate := by
  simp only [clockPeriod, h]

/-! ### A picture as rows of pixels -/

/-- The picture of `h` rows of `w` pixels, row by row from the top (R345). -/
def pixelGrid (h w : Nat) (pixel : Nat → Nat → Bool) : List (List Bool) :=
  (List.range h).map fun y => (List.range w).map fun x => pixel y x

section
variable {h w : Nat} (pixel : Nat → Nat → Bool)

theorem pixelGrid_getElem {x y : Nat} (hy : y < h) (hx : x < w) :
    (pixelGrid h w pixel)[y]?.bind (·[x]?) = some (pixel y x) := by
  simp [pixelGrid, hy, hx]

theorem pixelGrid_length : (pixelGrid h w pixel).length = h := by
  simp [pixelGrid]

theorem length_of_mem_pixelGrid {row : List Bool} (hr : row ∈ pixelGrid h w pixel) : row.length = w := by
  obtain ⟨y, _, rfl⟩ := List.mem_map.mp hr
  simp

end

theorem readout_view_high {s : State} (h : s.hires = true) : (readout s).view = pixelGrid 64 128 s.fb.get := by
  simp [readout, Framebuffer.view, h, pixelGrid]

/-- A low-resolution pixel is the top-left bit of its block (D3). -/
theorem readout_view_low {s : State} (h : s.hires = false) :
    (readout s).view = pixelGrid 32 64 fun y x => s.fb.get (2 * y) (2 * x) := by
  simp [readout, Framebuffer.view, h, pixelGrid]

end Sys2Proof.Machine
end

section
/-! The statements of the family 60_exceptions.md about CYCLE_RATE and about what the host reads. -/

namespace Sys2Proof.Machine

/-- Settles O55: the new rate is the smaller of the two, and the change touches no other field. -/
theorem cycleRateChange : Obligations.CycleRateChange := by
  unfold Obligations.CycleRateChange
  intro s r _
  refine ⟨fun hle => ?taken, fun hlt => ?clamped, rfl, clockPeriod_fixed (s := setCycleRate r s),
    setCycleRate_changesOnly r s, rfl, rfl, rfl⟩
  case taken => rw [setCycleRate_cycleRate, min_eq_left hle]
  case clamped => rw [setCycleRate_cycleRate, min_eq_right hlt.le]

/-- Settles O57: in either mode the view is a picture of that mode's size. -/
theorem readoutShowsTheFramebuffer : Obligations.ReadoutShowsTheFramebuffer := by
  unfold Obligations.ReadoutShowsTheFramebuffer
  intro s x y
  refine ⟨fun hh hy hx => ?highPixel, fun hh => ?highSize, fun hh hy hx => ?lowPixel, fun hh => ?lowSize,
    readout_toneOn_iff s⟩
  case highPixel => rw [readout_view_high hh, pixelGrid_getElem _ hy hx]
  case highSize => rw [readout_view_high hh]; exact ⟨pixelGrid_length _, fun _ => length_of_mem_pixelGrid _⟩
  case lowPixel => rw [readout_view_low hh, pixelGrid_getElem _ hy hx]
  case lowSize => rw [readout_view_low hh]; exact ⟨pixelGrid_length _, fun _ => length_of_mem_pixelGrid _⟩

end Sys2Proof.Machine
end

section
/-! SUPPORT. What memory reads after a program is loaded: its bytes from 0x200 up to the end of memory, and elsewhere the
old contents (spec 70_reset_and_hazards.md R362). -/

namespace Sys2Proof.Machine

variable {b : List Byte} {s : State}

theorem loadProgram_read_inside (hwf : s.mem.wf = true) {j : Nat} (hj : j < b.length) (hin : progBase + j < memSize) :
    (loadProgram b s).mem.read (progBase + j) = b[j] := by
  rw [loadProgram, State.setMem_mem, Memory.read_copyIn hwf, if_pos (by omega), Nat.add_sub_cancel_left,
    List.getD_eq_getElem b 0 hj]

theorem loadProgram_read_outside (hwf : s.mem.wf = true) {a : Nat}
    (ha : a < progBase ∨ progBase + b.length ≤ a ∨ memSize ≤ a) :
    (loadProgram b s).mem.read a = s.mem.read a := by
  rw [loadProgram, State.setMem_mem, Memory.read_copyIn hwf, if_neg (by omega)]

theorem loadProgram_changesOnly (b : List Byte) (s : State) : ChangesOnly [.mem] s (loadProgram b s) :=
  (ChangesOnly.refl s).setMem (by simp)

end Sys2Proof.Machine
end

section
/-! The statement of the family 70_reset_and_hazards.md about loading a program. -/

namespace Sys2Proof.Machine

/-- Settles O53: an address is inside the loaded program or outside it, and memory is all that the load writes. -/
theorem loadProgramCopiesAndTruncates : Obligations.LoadProgramCopiesAndTruncates := by
  unfold Obligations.LoadProgramCopiesAndTruncates
  intro b s hwf
  refine ⟨fun j hj hin => ?inside, fun a ha => loadProgram_read_outside hwf ha, loadProgram_changesOnly b s⟩
  case inside => exact (congrArg some (loadProgram_read_inside hwf hj hin)).trans (List.getElem?_eq_getElem hj).symm

end Sys2Proof.Machine
end
